-- ==== Sys2Proof/Word.lean ====
section
/-! DEFINITION. The bit-vector types of the block: a byte (R10) and the 32-bit command word (R70). -/

namespace Sys2Proof

/-- R10: "A *byte* is 8 bits and is an unsigned integer 0 to 255". -/
abbrev Byte := BitVec 8

/-- R70: the 32-bit command word. -/
abbrev Word := BitVec 32

end Sys2Proof
end

