-- ==== Sys2Proof/Config.lean ====
section
/-! DEFINITION. The implementation parameters of R8: the fixed constants, and the two things the block is given
from outside, the Permutation Primitive and the external provider, of which the spec assumes nothing (U1, U6). -/

namespace Sys2Proof

namespace Config

/-- R8 `W`, R3: bytes of the state buffer `S`. -/
def stateBytes : Nat := 200

/-- R8 `DCACHE_BYTES`: bytes of the cached-digest store. -/
def dcacheBytes : Nat := 64

/-- R8 `LEN_BITS`. -/
def lenBits : Nat := 24

/-- R8 `HLEN_BITS`. -/
def hlenBits : Nat := 16

/-- R8 `HASH_DSBYTE`: the default the spec gives the parameter (C1, D17). -/
def defaultHashDsbyte : Byte := 0x06

/-- FREE VALUE (log entry 1). R8 `permute`, U1: "a total function from 200 bytes to 200 bytes with no state".
The index names one of the unknown functions a platform may supply. -/
opaque permute : Nat → Vector Byte 200 → Vector Byte 200

/-- FREE VALUE (log entry 2). R153 `ext_squeeze : Π -> n -> (bytes, Π)`, whose result has exactly `n` bytes (U6). A
provider state of `Π` is named by a number. -/
opaque extSqueeze : Nat → (n : Nat) → Vector Byte n × Nat

end Config

/-- Which function is the parameter `permute` of R8. The first three are the spec's own instances
(95_test_vectors.md section 2, U9); `supplied` is any other, of which nothing is known. -/
inductive PermuteSel where
  /-- The test double `KF`: Keccak-f[1600] of U9. -/
  | keccakF
  /-- The test double `ID`: the identity. -/
  | identity
  /-- The test double `T` of 95_test_vectors.md section 2. -/
  | shiftAdd
  /-- The Permutation Primitive the platform supplies: the uninterpreted `Config.permute id`. -/
  | supplied (id : Nat)
deriving DecidableEq, Repr

/-- The parameters of R8 that a model takes as arguments and that never change (R39). -/
structure Params where
  /-- R8 `permute`. -/
  permute : PermuteSel
  /-- R8 `HASH_DSBYTE`, one byte in `0x01..0x7F`. -/
  hashDsbyte : Byte
deriving DecidableEq, Repr

/-- The external provider `EXT` with its present state (R40, R153): the doubles of 95_test_vectors.md section 2, and
`supplied`, any other provider, whose state is named by a number. -/
inductive Provider where
  /-- `ONES`: every byte `ff`. -/
  | ones
  /-- `ZEROS`: every byte `00`. -/
  | zeros
  /-- `CNT(s)`: a counter whose state is the next byte value. -/
  | counter (next : Byte)
  /-- Any provider: the uninterpreted `Config.extSqueeze`, in the provider state `st`. -/
  | supplied (st : Nat)
deriving DecidableEq, Repr

/-- One row of the variant table of R9, in bytes. -/
structure VariantRow where
  rate   : Byte
  cap    : Byte
  outlen : Byte
deriving DecidableEq, Repr

end Sys2Proof
end

