-- ==== Sys2Proof/Syntax.lean ====
section
/-! DEFINITION. The eleven commands of CSI-1 (R77), each with every operand it has: the numeric fields of its command
word (R71 to R76) and the payload that follows it (R70, R80). -/

namespace Sys2Proof

/-- R34, R76: the provider selection, 0 = INT (the block's own Sponge), 1 = EXT. -/
inductive ProviderSel where
  | int
  | ext
deriving DecidableEq, Repr

/-- A command (R17): the opcode row of R77 with its operands. The length fields `n` of ABSORB and UPDATE and `hlen` of
HINIT are the lengths of `data` (R72, R74). -/
inductive Instr where
  /-- R101 `sinit rate, cap, ds`. -/
  | sinit (rate cap ds : Byte)
  /-- R103 `absorb <bytes>`. -/
  | absorb (data : List Byte)
  /-- R107 `squeeze n`. -/
  | squeeze (n : BitVec 24)
  /-- R131 `hinit variant [, <bytes>]`. -/
  | hinit (var : Byte) (data : List Byte)
  /-- R132 `update <bytes>`. -/
  | update (data : List Byte)
  /-- R133 `digest`. -/
  | digest
  /-- R134 `hexdigest`. -/
  | hexdigest
  /-- R151 `rbind int | ext`. -/
  | rbind (psel : ProviderSel)
  /-- R154 `getrandbits k`. -/
  | getrandbits (k : BitVec 24)
  /-- R155 `random`. -/
  | random
  /-- R170 `stat`. -/
  | stat
deriving DecidableEq, Repr

/-- R70, R77 (column Payload): the payload bytes of a command. -/
def Instr.payload : Instr → List Byte
  | .sinit _ _ _   => []
  | .absorb data   => data
  | .squeeze _     => []
  | .hinit _ data  => data
  | .update data   => data
  | .digest        => []
  | .hexdigest     => []
  | .rbind _       => []
  | .getrandbits _ => []
  | .random        => []
  | .stat          => []

end Sys2Proof
end

