-- ==== Sys2Proof/WellFormed.lean ====
section
/-! DEFINITION. Which terms of `Instr` are commands of CSI-1: those whose payload fits the length field that must spell
its length (R72, R74). Every other operand is already as wide as its field. -/

namespace Sys2Proof

/-- R72: `n` is 0 to `2^24 - 1`; R74: `hlen` is 0 to 65535. Values a field may spell but a command may reserve
(R82) are well formed: the command that carries them runs, and fails. -/
def Instr.wellFormed : Instr → Bool
  | .sinit _ _ _   => true
  | .absorb data   => data.length < 2 ^ Config.lenBits
  | .squeeze _     => true
  | .hinit _ data  => data.length < 2 ^ Config.hlenBits
  | .update data   => data.length < 2 ^ Config.lenBits
  | .digest        => true
  | .hexdigest     => true
  | .rbind _       => true
  | .getrandbits _ => true
  | .random        => true
  | .stat          => true

end Sys2Proof
end

