-- ==== Sys2Proof/Decode.lean ====
section
/-! DEFINITION. The decoder of a command stream (R77 to R81, R90), total on any bytes, and after it the encoder.
`decodeTableWord` asks the decoder about one word of spec/opcode_table.json. -/

namespace Sys2Proof

/-- The eleven opcode rows of R77, by name. -/
inductive Op where
  | sinit | absorb | squeeze | hinit | update | digest | hexdigest | rbind | getrandbits | random | stat
deriving DecidableEq, Repr

/-- One row of the opcode map of R77: a word `w` is of the row when `w & mask == pat`. -/
structure OpcodeRow where
  op   : Op
  pat  : Word
  mask : Word
deriving DecidableEq, Repr

/-- R77, row by row. -/
def opcodeTable : List OpcodeRow :=
  [ ⟨.sinit,       0x10000000, 0xFF000000⟩,
    ⟨.absorb,      0x11000000, 0xFF000000⟩,
    ⟨.squeeze,     0x12000000, 0xFF000000⟩,
    ⟨.hinit,       0x20000000, 0xFF000000⟩,
    ⟨.update,      0x21000000, 0xFF000000⟩,
    ⟨.digest,      0x22000000, 0xFFFFFFFF⟩,
    ⟨.hexdigest,   0x23000000, 0xFFFFFFFF⟩,
    ⟨.rbind,       0x30000000, 0xFFFFFFFE⟩,
    ⟨.getrandbits, 0x31000000, 0xFF000000⟩,
    ⟨.random,      0x32000000, 0xFFFFFFFF⟩,
    ⟨.stat,        0x40000000, 0xFFFFFFFF⟩ ]

/-- R77: the row a word matches; none for an undefined word (R81). -/
def matchRow (w : Word) : Option Op :=
  (opcodeTable.find? fun r => w &&& r.mask == r.pat).map (·.op)

/-- R71: `op`, bits 31:24 of every format. -/
def fieldOp (w : Word) : Byte := w.extractLsb' 24 8

/-- R72: `n` (or `k`), bits 23:0 of format L. -/
def fieldN (w : Word) : BitVec 24 := w.extractLsb' 0 24

/-- R73, R74: `ds` of format C and `var` of format V, bits 23:16. -/
def fieldHi (w : Word) : Byte := w.extractLsb' 16 8

/-- R73: `cap`, bits 15:8 of format C. -/
def fieldCap (w : Word) : Byte := w.extractLsb' 8 8

/-- R73: `rate`, bits 7:0 of format C. -/
def fieldRate (w : Word) : Byte := w.extractLsb' 0 8

/-- R74: `hlen`, bits 15:0 of format V. -/
def fieldHlen (w : Word) : BitVec 16 := w.extractLsb' 0 16

/-- R76: `psel`, bit 0 of format B. -/
def fieldPsel (w : Word) : ProviderSel := if w.getLsbD 0 then .ext else .int

/-- R78: the payload length, "a function of the command word alone". -/
def paylen (w : Word) : Nat :=
  if fieldOp w = 0x11 ∨ fieldOp w = 0x21 then (fieldN w).toNat
  else if fieldOp w = 0x20 then (fieldHlen w).toNat
  else 0

/-- R80: the command of a row, from the fields of its word and its payload. -/
def assemble (op : Op) (w : Word) (data : List Byte) : Instr :=
  match op with
  | .sinit       => .sinit (fieldRate w) (fieldCap w) (fieldHi w)
  | .absorb      => .absorb data
  | .squeeze     => .squeeze (fieldN w)
  | .hinit       => .hinit (fieldHi w) data
  | .update      => .update data
  | .digest      => .digest
  | .hexdigest   => .hexdigest
  | .rbind       => .rbind (fieldPsel w)
  | .getrandbits => .getrandbits (fieldN w)
  | .random      => .random
  | .stat        => .stat

/-- R79: the word whose bytes are, in stream order, `b3 b2 b1 b0`: most significant byte first. -/
def wordOfBytes (b3 b2 b1 b0 : Byte) : Word := b3 ++ b2 ++ b1 ++ b0

/-- What stands at the front of a command stream. -/
inductive Decoded where
  /-- One of the eleven commands, with the bytes after it. -/
  | command (i : Instr) (rest : List Byte)
  /-- R81: a word that matches no row. It has no payload; `rest` is the bytes after its four. -/
  | undefinedWord (w : Word) (rest : List Byte)
  /-- R223: the stream is used up. -/
  | endOfStream
  /-- R90: the stream ends inside a command word. -/
  | truncatedWord
  /-- R90: the stream ends inside the payload of the command word `w`. -/
  | truncatedPayload (w : Word)
deriving DecidableEq, Repr

/-- R85 steps 1 and 2 on a command word and the bytes that follow it. -/
def decodeWord (w : Word) (bytes : List Byte) : Decoded :=
  match matchRow w with
  | none => .undefinedWord w bytes
  | some op =>
    if paylen w ≤ bytes.length then
      .command (assemble op w (bytes.take (paylen w))) (bytes.drop (paylen w))
    else .truncatedPayload w

/-- R70, R79, R85: the decoder of a command stream. -/
def decode : List Byte → Decoded
  | b3 :: b2 :: b1 :: b0 :: rest => decodeWord (wordOfBytes b3 b2 b1 b0) rest
  | []                           => .endOfStream
  | [_]                          => .truncatedWord
  | [_, _]                       => .truncatedWord
  | [_, _, _]                    => .truncatedWord

/-! ### The encoder (R71 to R79) -/

/-- R79: the four bytes of a command word in stream order. -/
def wordBytes (w : Word) : List Byte :=
  [w.extractLsb' 24 8, w.extractLsb' 16 8, w.extractLsb' 8 8, w.extractLsb' 0 8]

/-- R72: format L. -/
def formatL (op : Byte) (n : BitVec 24) : Word := op ++ n

/-- R73: format C. -/
def formatC (op ds cap rate : Byte) : Word := op ++ ds ++ cap ++ rate

/-- R74: format V. -/
def formatV (op var : Byte) (hlen : BitVec 16) : Word := op ++ var ++ hlen

/-- R75: format N. -/
def formatN (op : Byte) : Word := op ++ 0#24

/-- R76: format B. -/
def formatB (op : Byte) (psel : ProviderSel) : Word :=
  match psel with
  | .int => op ++ 0#24
  | .ext => op ++ 1#24

/-- R77, R88: the command word of a command. -/
def encodeWord : Instr → Word
  | .sinit rate cap ds => formatC 0x10 ds cap rate
  | .absorb data       => formatL 0x11 (BitVec.ofNat 24 data.length)
  | .squeeze n         => formatL 0x12 n
  | .hinit var data    => formatV 0x20 var (BitVec.ofNat 16 data.length)
  | .update data       => formatL 0x21 (BitVec.ofNat 24 data.length)
  | .digest            => formatN 0x22
  | .hexdigest         => formatN 0x23
  | .rbind psel        => formatB 0x30 psel
  | .getrandbits k     => formatL 0x31 k
  | .random            => formatN 0x32
  | .stat              => formatN 0x40

/-- R79: the bytes of a command in the command stream. -/
def encode (i : Instr) : List Byte := wordBytes (encodeWord i) ++ i.payload

/-- R90: "a concatenation of commands, each `4 + paylen(w)` bytes", undefined words (R81) among them. -/
inductive WellFormedStream : List Byte → Prop where
  | done : WellFormedStream []
  | more (w : Word) (data rest : List Byte) (hlen : data.length = paylen w) (hrest : WellFormedStream rest) :
      WellFormedStream (wordBytes w ++ data ++ rest)

/-! ### The host's word -/

/-- The bytes of a command whose bits are `w`, its first `nbits` bits given and every bit above them 0: bits 31:0 are the
command word, sent most significant byte first (R79), and the payload's bytes (R78) follow from bit 32 on. -/
def tableBytes (nbits w : Nat) : List Byte :=
  let v := w % 2 ^ nbits
  let word := BitVec.ofNat 32 v
  wordBytes word ++ (List.range (paylen word)).map fun j => BitVec.ofNat 8 (v >>> (32 + 8 * j))

/-- The instruction the decoder reads from the table's word `w` of `nbits` bits. -/
def decodeTableWord (nbits w : Nat) : Option Instr :=
  match decode (tableBytes nbits w) with
  | .command i _         => some i
  | .undefinedWord _ _   => none
  | .endOfStream         => none
  | .truncatedWord       => none
  | .truncatedPayload _  => none

end Sys2Proof
end

