-- ==== Sys2Proof/Machine/Memory.lean ====
section
/-! DEFINITION. The two byte stores of the block, `S` and `DCACHE` (R50), as lists of (index, byte) cells in one
canonical form, and the accesses R13 names. An index no cell lists reads as `0x00`, the reset content of both (R45). -/

namespace Sys2Proof.Machine

/-- A byte store: cells with strictly rising indices, none holding `0x00`. -/
abbrev Memory := List Host.Cell

namespace Memory

/-- R45: what an index that no cell lists reads as. -/
def unlisted : Byte := 0x00

/-- R13 `S[i]`: the byte at an index. -/
def read : Memory → Nat → Byte
  | [], _ => unlisted
  | (b, v) :: m, a => if a = b then v else read m a

/-- R13 `S[i] <- v`. Writing what an unlisted index reads as removes the cell. -/
def write : Memory → Nat → Byte → Memory
  | [], a, v => if v = unlisted then [] else [(a, v)]
  | (b, w) :: m, a, v =>
    if a < b then (if v = unlisted then (b, w) :: m else (a, v) :: (b, w) :: m)
    else if a = b then (if v = unlisted then m else (a, v) :: m)
    else (b, w) :: write m a v

/-- R13 `MemRead(addr, n)`: the `n` bytes from index `addr` on, in index order (R53). -/
def readBytes (m : Memory) (addr n : Nat) : List Byte := (List.range n).map fun j => read m (addr + j)

/-- R13 `MemWrite(addr, n, v)`: byte `v[j]` to index `addr + j`. -/
def writeBytes : Memory → Nat → List Byte → Memory
  | m, _, [] => m
  | m, addr, v :: vs => writeBytes (write m addr v) (addr + 1) vs

/-- The store whose index `addr + j` holds `bs[j]` and whose other indices read as unlisted. -/
def ofBytes : Nat → List Byte → Memory
  | _, [] => []
  | addr, b :: bs => if b = unlisted then ofBytes (addr + 1) bs else (addr, b) :: ofBytes (addr + 1) bs

/-- The canonical form from index `lo` on: indices rise strictly, lie below `size`, and no cell holds the unlisted byte. -/
def wfFrom (size : Nat) : Nat → Memory → Bool
  | _, [] => true
  | lo, (a, v) :: m => decide (lo ≤ a) && decide (a < size) && decide (v ≠ unlisted) && wfFrom size (a + 1) m

/-- The canonical form of a store of `size` bytes. -/
def wf (m : Memory) (size : Nat) : Bool := wfFrom size 0 m

end Memory

end Sys2Proof.Machine
end

