-- ==== Sys2Proof/Machine/State.lean ====
section
/-! DEFINITION. The state of the machine: the thirteen elements of the block (R20), and beside them what R39 and R40 keep
outside the block: its parameters, the external provider, and the command and response streams. -/

namespace Sys2Proof.Machine

/-- R25: the phase of the Sponge, 0 = ABSORBING, 1 = SQUEEZING. -/
inductive Phase where
  | absorbing
  | squeezing
deriving DecidableEq, Repr

/-- R28: which instance the block holds, 0 = NONE, 1 = RAW, 2 = HASH; "3 never occurs". -/
inductive Mode where
  | none
  | raw
  | hash
deriving DecidableEq, Repr

/-- R20: "The whole architectural state of the block is the tuple below". -/
structure Block where
  /-- R21: the sponge state, 200 bytes. -/
  S         : Memory
  /-- R22: `rate_bytes`. -/
  RATE      : Byte
  /-- R22: `capacity_bytes`. -/
  CAP       : Byte
  /-- R26: the byte the padding step exclusive-ors at `ACUR`. -/
  DSBYTE    : Byte
  /-- R23: the absorb cursor. -/
  ACUR      : Byte
  /-- R24: the squeeze cursor. -/
  SCUR      : Byte
  /-- R25. -/
  PHASE     : Phase
  /-- R28. -/
  MODE      : Mode
  /-- R29: `output_length_bytes`, 0 when MODE is not HASH. -/
  OUTLEN    : Byte
  /-- R30. -/
  FINALIZED : Bool
  /-- R31: the cached digest, 64 bytes. -/
  DCACHE    : Memory
  /-- R34: the extractor's provider, 0 = INT, 1 = EXT. -/
  PSEL      : ProviderSel
  /-- R36: the status code of the most recent failing command, 0 if none. -/
  ERR       : Byte
deriving DecidableEq, Repr

/-- R45: every element after the reset event. -/
def Block.reset : Block where
  S         := []
  RATE      := 0
  CAP       := 0
  DSBYTE    := 0
  ACUR      := 0
  SCUR      := 0
  PHASE     := .absorbing
  MODE      := .none
  OUTLEN    := 0
  FINALIZED := false
  DCACHE    := []
  PSEL      := .int
  ERR       := 0

/-- The machine: the block and its environment. -/
structure State where
  /-- R20: the block's architectural state. -/
  blk          : Block
  /-- R8, R39: the parameters `permute` and `HASH_DSBYTE`. No step changes them. -/
  par          : Params
  /-- R40: the external provider with its present state. -/
  ext          : Provider
  /-- R50: the bytes of the command stream that the block has not taken yet. -/
  cmd          : List Byte
  /-- R42: the read offset `cpos`, the number of command bytes taken so far. The model's own bookkeeping. -/
  cpos         : Nat
  /-- R50, R223: the response stream, the concatenation of all responses in order. -/
  resp         : List Byte
  /-- R112: the number of `Permute()` calls since reset, for tests that instrument `permute`. The model's own. -/
  permuteCalls : Nat
  /-- R210: the platform has signalled the reset event, which falls before the next command (log entry 3). -/
  resetPending : Bool
deriving DecidableEq, Repr

/-- The machine right after reset, before the host has sent a byte. The block is as R45 says; `HASH_DSBYTE` is its
default (R8); `permute` and `EXT` are the uninterpreted ones (log entry 4). -/
def State.reset : State where
  blk          := Block.reset
  par          := ⟨.supplied 0, Config.defaultHashDsbyte⟩
  ext          := .supplied 0
  cmd          := []
  cpos         := 0
  resp         := []
  permuteCalls := 0
  resetPending := false

/-- Why a step stops with a fault. Both are SAFE: no step from a state that meets the invariant of R27 and R33
raises either, and the spec gives the operations no meaning there (log entry 5). -/
inductive Fault where
  /-- Raised by ABSORB, UPDATE, SQUEEZE, DIGEST, HEXDIGEST, GETRANDBITS and RANDOM where a precondition of `AB`, `FINPAD` or
  `SQ` (R102, R104, R106) does not hold: a cursor not below `RATE`, or `RATE` above 199. Safe. -/
  | spongePrecondition
  /-- Raised by DIGEST and HEXDIGEST where `OUTLEN` is above 64, so that the access to `DCACHE` names a byte that
  does not exist (R31, R50). Safe. -/
  | noSuchDigestByte
deriving DecidableEq, Repr

/-- Why a step is refused. -/
inductive Refusal where
  /-- Raised only by an arm of `exec` whose instruction has no meaning yet. Safe. -/
  | notModelled (mnemonic : String)
  /-- Raised by `step` when the command stream is used up: the run has ended (R223), the block is idle. Safe. -/
  | noCommand
  /-- Raised by `step` when the stream ends inside a command word: "a model should refuse it rather than guess" (R90). Safe. -/
  | truncatedWord
  /-- Raised by `step` when the stream ends inside a payload (R90). Safe. -/
  | truncatedPayload
deriving DecidableEq, Repr

/-- The outcomes of a command. -/
abbrev Result := Host.Outcome State Fault Refusal

end Sys2Proof.Machine
end

