-- ==== Sys2Proof/Machine/Flags.lean ====
section
/-! DEFINITION. The encodings of the one-bit elements and the status registers they are shown in (R37, R38), the
status codes (R181), and which unit's commands a mode accepts (R83). -/

namespace Sys2Proof.Machine

/-- R20, R25: 0 = ABSORBING, 1 = SQUEEZING. -/
def Phase.bit : Phase → Byte
  | .absorbing => 0
  | .squeezing => 1

/-- R20, R28: 0 = NONE, 1 = RAW, 2 = HASH. -/
def Mode.code : Mode → Byte
  | .none => 0
  | .raw  => 1
  | .hash => 2

/-- R34: 0 = INT, 1 = EXT. -/
def selBit : ProviderSel → Byte
  | .int => 0
  | .ext => 1

/-- R30: `FINALIZED` as a bit. -/
def boolBit (b : Bool) : Byte := if b then 1 else 0

/-- R37, R38: `SR_FLAGS`. -/
def srFlags (b : Block) : Byte := selBit b.PSEL <<< 2 ||| boolBit b.FINALIZED <<< 1 ||| b.PHASE.bit

/-- R37, R170: the nine status registers in order of their number. -/
def statusRegisters (b : Block) : List Byte :=
  [b.MODE.code, srFlags b, b.ERR, b.RATE, b.CAP, b.DSBYTE, b.ACUR, b.SCUR, b.OUTLEN]

/-- R181: the errors a command can end with. -/
inductive Error where
  | configurationError
  | stateError
  | illegalCommand
deriving DecidableEq, Repr

/-- R86, R181: the status `OK`. -/
def statusOk : Byte := 0x00

/-- R181: `E_CONFIG`, `E_STATE`, `E_ILLEGAL`. -/
def Error.code : Error → Byte
  | .configurationError => 0x01
  | .stateError         => 0x02
  | .illegalCommand     => 0x03

/-- R83, row ABSORB, SQUEEZE. -/
def spongeAvailable (b : Block) : Bool := b.MODE = .raw

/-- R83, row UPDATE, DIGEST, HEXDIGEST. -/
def hashAvailable (b : Block) : Bool := b.MODE = .hash

/-- R83, rows GETRANDBITS, RANDOM. -/
def extractorAvailable (b : Block) : Bool := b.PSEL = .ext || b.MODE = .raw

end Sys2Proof.Machine
end

