-- ==== Sys2Proof/Machine/Operands.lean ====
section
/-! DEFINITION. How operands are read and results are written: the variant table (R9), the numbers of R11, the
hexadecimal text of R135 and the binary64 form of R156. -/

namespace Sys2Proof.Machine

/-- R9: the variants 0 to 3, in bytes. -/
def variantTable : List VariantRow :=
  [⟨144, 56, 28⟩, ⟨136, 64, 32⟩, ⟨104, 96, 48⟩, ⟨72, 128, 64⟩]

/-- R74, R131: the row a variant code selects; none for an unsupported variant. -/
def variantRow (var : Byte) : Option VariantRow := variantTable[var.toNat]?

/-- R26, R82: `ds = 0x00` and `ds >= 0x80` are reserved. -/
def dsReserved (ds : Byte) : Bool := ds = 0x00 || 0x80 ≤ ds.toNat

/-- R101: the construction check, in unbounded integers. -/
def rateCapOk (rate cap : Byte) : Bool := 1 ≤ rate.toNat && 1 ≤ cap.toNat && rate.toNat + cap.toNat = 200

/-- R11 `ceil_div(a, b)`. -/
def ceilDiv (a b : Nat) : Nat := (a + b - 1) / b

/-- R11 `be(b)`: the big-endian value, "first byte most significant". -/
def be (bs : List Byte) : Nat := bs.foldl (fun acc b => acc * 256 + b.toNat) 0

/-- R11 `be_bytes(v, n)`: the `n` bytes of `v`, most significant first. -/
def beBytes (v : Nat) : Nat → List Byte
  | 0 => []
  | n + 1 => BitVec.ofNat 8 (v / 256 ^ n) :: beBytes v n

/-- R154: `value & ((1 << k) - 1)`, the low `k` bits. -/
def lowBits (v k : Nat) : Nat := v &&& ((1 <<< k) - 1)

/-- R135 `digit(v)` for `v` in 0 to 15. -/
def hexDigit (v : Nat) : Byte := if v < 10 then BitVec.ofNat 8 (0x30 + v) else BitVec.ofNat 8 (0x61 + v - 10)

/-- R135 `hex(d)`: the high four bits of each byte first. -/
def hex : List Byte → List Byte
  | [] => []
  | b :: bs => hexDigit (b.toNat >>> 4) :: hexDigit (b.toNat &&& 0x0F) :: hex bs

/-- R156: the 64 bits of the binary64 encoding of `m / 2^53`, for `0 <= m < 2^53`. -/
def f64Bits (m : Nat) : Nat :=
  if m = 0 then 0
  else
    let e := m.log2
    ((e + 970) <<< 52) ||| ((m - 2 ^ e) <<< (52 - e))

/-- R156 `f64(m)`: the eight bytes, most significant first. -/
def f64 (m : Nat) : List Byte := beBytes (f64Bits m) 8

end Sys2Proof.Machine
end

