-- ==== Sys2Proof/Machine/Permute.lean ====
section
/-! DEFINITION. The instances of the parameter `permute` (R8): `ID` and `T` of 95_test_vectors.md section 2, `KF` of
93_implementation_defined.md U9, and the platform's own. The block itself only calls `permute` (R7, R100). -/

namespace Sys2Proof.Machine

/-- U9: a lane of 64 bits. -/
abbrev Lane := BitVec 64

/-- U9: `b[8*k + j]` times `256^j`, summed over `j` in 0..7. -/
def laneOfBytes (bs : List Byte) (k : Nat) : Lane :=
  BitVec.ofNat 64 ((List.range 8).foldr (fun j acc => acc * 256 + (bs.getD (8 * k + j) 0).toNat) 0)

/-- U9: byte `j` of a lane, little-endian. -/
def byteOfLane (l : Lane) (j : Nat) : Byte := BitVec.ofNat 8 (l.toNat >>> (8 * j))

/-- U9: `A[x][y]`, lane index `5*y + x`, "all index arithmetic mod 5". -/
def laneAt (a : List Lane) (x y : Nat) : Lane := a.getD (5 * (y % 5) + x % 5) 0

/-- A lane array from its entries. -/
def lanes (f : Nat → Nat → Lane) : List Lane := (List.range 25).map fun i => f (i % 5) (i / 5)

/-- U9: `rol(v, n)`. -/
def rol (v : Lane) (n : Nat) : Lane := v.rotateLeft n

/-- U9: the table `ROT[x][y]`, a row for each `x` and a column for each `y`, as the spec prints it. -/
def rotationTable : List (List Nat) :=
  [ [ 0, 36,  3, 41, 18],
    [ 1, 44, 10, 45,  2],
    [62,  6, 43, 15, 61],
    [28, 55, 25, 21, 56],
    [27, 20, 39,  8, 14] ]

/-- U9: `ROT[x][y]`. -/
def rot (x y : Nat) : Nat := (rotationTable.getD x []).getD y 0

/-- One printed row of U9's table of round constants: rounds `i`, `i + 8` and `i + 16`. -/
abbrev ConstantRow := Lane × Lane × Lane

/-- U9: the table of round constants as the spec prints it, a row for each `i` in 0 to 7. -/
def constantTable : List ConstantRow :=
  [ /- i = 0 -/ (0x0000000000000001, 0x000000000000008A, 0x8000000000008002),
    /- i = 1 -/ (0x0000000000008082, 0x0000000000000088, 0x8000000000000080),
    /- i = 2 -/ (0x800000000000808A, 0x0000000080008009, 0x000000000000800A),
    /- i = 3 -/ (0x8000000080008000, 0x000000008000000A, 0x800000008000000A),
    /- i = 4 -/ (0x000000000000808B, 0x000000008000808B, 0x8000000080008081),
    /- i = 5 -/ (0x0000000080000001, 0x800000000000008B, 0x8000000000008080),
    /- i = 6 -/ (0x8000000080008081, 0x8000000000008089, 0x0000000080000001),
    /- i = 7 -/ (0x8000000000008009, 0x8000000000008003, 0x8000000080008008) ]

/-- U9: `RC[0..23]` in the order of the rounds, column after column of the table. -/
def roundConstants : List Lane :=
  constantTable.map (fun row => row.1) ++ constantTable.map (fun row => row.2.1) ++ constantTable.map (fun row => row.2.2)

/-- U9, theta: `C[x]`. -/
def thetaC (a : List Lane) (x : Nat) : Lane :=
  laneAt a x 0 ^^^ laneAt a x 1 ^^^ laneAt a x 2 ^^^ laneAt a x 3 ^^^ laneAt a x 4

/-- U9, theta: `A[x][y] ^ D[x]` with `D[x] = C[x-1] ^ rol(C[x+1], 1)`. -/
def theta (a : List Lane) : List Lane :=
  lanes fun x y => laneAt a x y ^^^ (thetaC a ((x + 4) % 5) ^^^ rol (thetaC a ((x + 1) % 5)) 1)

/-- U9, rho and pi: `B[y][2*x + 3*y] = rol(A[x][y], ROT[x][y])`, read at the target `(X, Y)`, whose source is
`y = X`, `x = X + 3*Y` mod 5. -/
def rhoPi (a : List Lane) : List Lane :=
  lanes fun tx ty =>
    let x := (tx + 3 * ty) % 5
    rol (laneAt a x tx) (rot x tx)

/-- U9, chi. -/
def chi (b : List Lane) : List Lane :=
  lanes fun x y => laneAt b x y ^^^ (~~~ laneAt b (x + 1) y &&& laneAt b (x + 2) y)

/-- U9, iota. -/
def iota (a : List Lane) (rc : Lane) : List Lane :=
  match a with
  | [] => []
  | l :: ls => (l ^^^ rc) :: ls

/-- U9: one round. -/
def keccakRound (a : List Lane) (rc : Lane) : List Lane := iota (chi (rhoPi (theta a))) rc

/-- U9: `KF`, 24 rounds over the 25 lanes of 200 bytes. -/
def keccakF (bs : List Byte) : List Byte :=
  let a := roundConstants.foldl keccakRound (lanes fun x y => laneOfBytes bs (5 * y + x))
  (List.range Config.stateBytes).map fun i => byteOfLane (a.getD (i / 8) 0) (i % 8)

/-- 95_test_vectors.md section 2: `T(b)[i] = (b[(i + 1) mod 200] + i + 1) mod 256`. -/
def shiftAdd (bs : List Byte) : List Byte :=
  (List.range Config.stateBytes).map fun i =>
    bs.getD ((i + 1) % Config.stateBytes) 0 + BitVec.ofNat 8 (i + 1)

/-- R8, R100: the parameter `permute` on the 200 bytes of `S` in index order (R52). -/
def permuteBytes (p : PermuteSel) (bs : List Byte) : List Byte :=
  match p with
  | .keccakF     => keccakF bs
  | .identity    => bs
  | .shiftAdd    => shiftAdd bs
  | .supplied id => (Config.permute id (Vector.ofFn fun i => bs.getD i.val 0)).toList

end Sys2Proof.Machine
end

