-- ==== Sys2Proof/Machine/Provider.lean ====
section
/-! DEFINITION. The external provider `EXT`: what a request of `n` bytes returns and leaves (R153). -/

namespace Sys2Proof.Machine

/-- R153 `ext_squeeze`: the `n` bytes of a request and the provider after it. `ONES`, `ZEROS` and `CNT(s)` are as in
95_test_vectors.md section 2. -/
def providerSqueeze (p : Provider) (n : Nat) : List Byte × Provider :=
  match p with
  | .ones         => (List.replicate n 0xFF, .ones)
  | .zeros        => (List.replicate n 0x00, .zeros)
  | .counter next => ((List.range n).map fun j => next + BitVec.ofNat 8 j, .counter (next + BitVec.ofNat 8 n))
  | .supplied st  => ((Config.extSqueeze st n).1.toList, .supplied (Config.extSqueeze st n).2)

end Sys2Proof.Machine
end

