-- ==== Sys2Proof/Machine/Ops.lean ====
section
/-! DEFINITION. The operations that commands share: the permutation call, the absorb, padding and squeeze steps, the
construction of an instance, provider requests, the response of a command, failing with an error, reset, and taking a command
from the stream. -/

namespace Sys2Proof.Machine

/-! ### Elements of the block -/

/-- `S[i] <- S[i] ^ x`. -/
def xorS (i : Nat) (x : Byte) (s : State) : State :=
  { s with blk := { s.blk with S := s.blk.S.write i (s.blk.S.read i ^^^ x) } }

/-- `ACUR <- v`. -/
def setAcur (v : Byte) (s : State) : State := { s with blk := { s.blk with ACUR := v } }

/-- `SCUR <- v`. -/
def setScur (v : Byte) (s : State) : State := { s with blk := { s.blk with SCUR := v } }

/-- R100 `Permute()`: "all 200 bytes read and all 200 bytes written as one step". -/
def permuteS (s : State) : State :=
  { s with
    blk := { s.blk with
      S := Memory.ofBytes 0 (permuteBytes s.par.permute (s.blk.S.readBytes 0 Config.stateBytes)) }
    permuteCalls := s.permuteCalls + 1 }

/-! ### The Sponge's steps -/

/-- R102: one byte of `AB`, with the eager permutation at the block boundary. -/
def absorbByte (s : State) (x : Byte) : State :=
  let t := setAcur (s.blk.ACUR + 1) (xorS s.blk.ACUR.toNat x s)
  if s.blk.ACUR + 1 = s.blk.RATE then setAcur 0 (permuteS t) else t

/-- R102 `AB(data)`. -/
def absorb (data : List Byte) (s : State) : State := data.foldl absorbByte s

/-- R104 `FINPAD()`. -/
def finpad (s : State) : State :=
  let t := permuteS (xorS (s.blk.RATE.toNat - 1) 0x80 (xorS s.blk.ACUR.toNat s.blk.DSBYTE s))
  { t with blk := { t.blk with ACUR := 0, SCUR := 0, PHASE := .squeezing } }

/-- R106: "if `phase == ABSORBING`, calls `finalize_padding()` first". -/
def finalizeSponge (s : State) : State := if s.blk.PHASE = .absorbing then finpad s else s

/-- R106, R109: the state after one byte `S[SCUR]` is emitted, with the eager permutation at the block boundary. -/
def squeezeStep (s : State) : State :=
  let t := setScur (s.blk.SCUR + 1) s
  if s.blk.SCUR + 1 = s.blk.RATE then setScur 0 (permuteS t) else t

/-- R106: the `n` bytes the squeeze loop emits. -/
def squeezeOut : Nat → State → List Byte
  | 0, _ => []
  | n + 1, s => s.blk.S.read s.blk.SCUR.toNat :: squeezeOut n (squeezeStep s)

/-- R106: the state after the squeeze loop has emitted `n` bytes. -/
def squeezeEnd : Nat → State → State
  | 0, s => s
  | n + 1, s => squeezeEnd n (squeezeStep s)

/-- R106 `SQ(n)`: the bytes and the state after them. -/
def squeeze (n : Nat) (s : State) : List Byte × State :=
  (squeezeOut n (finalizeSponge s), squeezeEnd n (finalizeSponge s))

/-- R102, R104, R106: the preconditions of `AB`, `FINPAD` and `SQ` (with R20's bound on `RATE`). They hold between any
two commands of an instance (R27). -/
def spongeReady (b : Block) : Bool :=
  b.RATE.toNat ≤ 199 && b.ACUR.toNat < b.RATE.toNat && b.SCUR.toNat < b.RATE.toNat

/-! ### Construction -/

/-- R46: every Sponge and Hash Engine element of a new instance; `PSEL` and `ERR` are not written. -/
def construct (mode : Mode) (rate cap ds outlen : Byte) (s : State) : State :=
  { s with
    blk := { s.blk with
      S := [], RATE := rate, CAP := cap, DSBYTE := ds, ACUR := 0, SCUR := 0, PHASE := .absorbing,
      MODE := mode, OUTLEN := outlen, FINALIZED := false, DCACHE := [] } }

/-! ### The Hash Engine's digest -/

/-- R31, R133: the digest store can hold `OUTLEN` bytes. -/
def digestReady (b : Block) : Bool := b.OUTLEN.toNat ≤ Config.dcacheBytes

/-- R133 `FINALIZE()` where `FINALIZED = 0`. -/
def finalizeDigest (s : State) : State :=
  let t := { s with blk := { s.blk with FINALIZED := true } }
  let u := squeeze t.blk.OUTLEN.toNat t
  { u.2 with blk := { u.2.blk with DCACHE := u.2.blk.DCACHE.writeBytes 0 u.1 } }

/-- R133: `DCACHE[0 .. OUTLEN-1]`. -/
def digestBytes (b : Block) : List Byte := b.DCACHE.readBytes 0 b.OUTLEN.toNat

/-! ### The extractor's provider -/

/-- R13 `ExtSqueeze(n)`: the bytes, and the state with the provider advanced. -/
def extSqueeze (n : Nat) (s : State) : List Byte × State :=
  ((providerSqueeze s.ext n).1, { s with ext := (providerSqueeze s.ext n).2 })

/-- R152 `PSQ(n)`. -/
def psq (n : Nat) (s : State) : List Byte × State :=
  match s.blk.PSEL with
  | .int => squeeze n s
  | .ext => extSqueeze n s

/-- R152: what `PSQ` needs of the state: with `PSEL = 0`, the preconditions of `SQ`. -/
def psqReady (b : Block) : Bool := b.PSEL = .ext || spongeReady b

/-! ### Responses, errors, reset -/

/-- R86: the response of a successful command, `0x00 || out`. -/
def respond (out : List Byte) (s : State) : State := { s with resp := s.resp ++ statusOk :: out }

/-- R186: what a failing command does: "(1) writes `ERR <- code`; (2) writes no other state element; ... (4) produces the
response `code` with empty output". This is "the whole of trap entry". -/
def raise (e : Error) (s : State) : State :=
  { s with blk := { s.blk with ERR := e.code }, resp := s.resp ++ [e.code] }

/-- R210: the reset event. It does not touch the provider or the parameters; the streams are the host's. The count of
`Permute()` calls starts anew, and the platform's signal is taken. -/
def resetEvent (s : State) : State :=
  { s with blk := Block.reset, permuteCalls := 0, resetPending := false }

/-- R42, R78: the block takes a command of `len` bytes off the stream and leaves `rest`: `cpos <- cpos + len`. -/
def takeCommand (len : Nat) (rest : List Byte) (s : State) : State :=
  { s with cmd := rest, cpos := s.cpos + len }

end Sys2Proof.Machine
end

