-- ==== Sys2Proof/Machine/HashEngine.lean ====
section
/-! DEFINITION. The commands of the Hash Engine: HINIT, UPDATE, DIGEST, HEXDIGEST (41_hash_engine.md). -/

namespace Sys2Proof.Machine

/-- R131 HINIT. -/
def execHinit (var : Byte) (data : List Byte) (s : State) : Result :=
  match variantRow var with
  | some v => .next (respond [] (absorb data (construct .hash v.rate v.cap s.par.hashDsbyte v.outlen s)))
  | none   => .next (raise .configurationError s)

/-- R132 UPDATE. -/
def execUpdate (data : List Byte) (s : State) : Result :=
  if hashAvailable s.blk then
    if s.blk.FINALIZED then .next (raise .stateError s)
    else if spongeReady s.blk then .next (respond [] (absorb data s))
    else .fault .spongePrecondition
  else .next (raise .illegalCommand s)

/-- R133 `FINALIZE()`, and then the response that `text` makes of the digest; shared by DIGEST and HEXDIGEST. -/
def reportDigest (text : List Byte → List Byte) (s : State) : Result :=
  if hashAvailable s.blk then
    if digestReady s.blk then
      if s.blk.FINALIZED then .next (respond (text (digestBytes s.blk)) s)
      else if spongeReady s.blk then
        .next (respond (text (digestBytes (finalizeDigest s).blk)) (finalizeDigest s))
      else .fault .spongePrecondition
    else .fault .noSuchDigestByte
  else .next (raise .illegalCommand s)

/-- R133 DIGEST: the raw bytes. -/
def execDigest (s : State) : Result := reportDigest (fun d => d) s

/-- R134 HEXDIGEST: "lowercase hexadecimal encoding of `digest()`". -/
def execHexdigest (s : State) : Result := reportDigest hex s

end Sys2Proof.Machine
end

