-- ==== Sys2Proof/Machine/RandomExtractor.lean ====
section
/-! DEFINITION. The commands of the Random Bit Extractor: RBIND, GETRANDBITS, RANDOM (42_random_extractor.md). -/

namespace Sys2Proof.Machine

/-- R151 RBIND. -/
def execRbind (psel : ProviderSel) (s : State) : Result :=
  .next (respond [] { s with blk := { s.blk with PSEL := psel } })

/-- R152: draws `nbytes` bytes from the bound provider and responds with what `f` makes of their big-endian value; shared
by GETRANDBITS and RANDOM. -/
def draw (nbytes : Nat) (f : Nat → List Byte) (s : State) : Result :=
  if extractorAvailable s.blk then
    if psqReady s.blk then .next (respond (f (be (psq nbytes s).1)) (psq nbytes s).2)
    else .fault .spongePrecondition
  else .next (raise .illegalCommand s)

/-- R154 GETRANDBITS. -/
def execGetrandbits (k : BitVec 24) (s : State) : Result :=
  if k = 0 then .next (raise .illegalCommand s)
  else
    let nbytes := ceilDiv k.toNat 8
    draw nbytes (fun v => beBytes (lowBits v k.toNat) nbytes) s

/-- R155 RANDOM. -/
def execRandom (s : State) : Result := draw 7 (fun v => f64 (lowBits v 53)) s

end Sys2Proof.Machine
end

