-- ==== Sys2Proof/Machine/Sponge.lean ====
section
/-! DEFINITION. The commands of the Sponge: SINIT, ABSORB, SQUEEZE (40_sponge.md). The checks stand in the order of R85. -/

namespace Sys2Proof.Machine

/-- R101 SINIT. -/
def execSinit (rate cap ds : Byte) (s : State) : Result :=
  if dsReserved ds then .next (raise .illegalCommand s)
  else if rateCapOk rate cap then .next (respond [] (construct .raw rate cap ds 0 s))
  else .next (raise .configurationError s)

/-- R103 ABSORB. -/
def execAbsorb (data : List Byte) (s : State) : Result :=
  if spongeAvailable s.blk then
    if s.blk.PHASE = .absorbing then
      if spongeReady s.blk then .next (respond [] (absorb data s)) else .fault .spongePrecondition
    else .next (raise .stateError s)
  else .next (raise .illegalCommand s)

/-- R107 SQUEEZE. -/
def execSqueeze (n : BitVec 24) (s : State) : Result :=
  if spongeAvailable s.blk then
    if spongeReady s.blk then .next (respond (squeeze n.toNat s).1 (squeeze n.toNat s).2)
    else .fault .spongePrecondition
  else .next (raise .illegalCommand s)

end Sys2Proof.Machine
end

