-- ==== Sys2Proof/Machine/System.lean ====
section
/-! DEFINITION. The system command: STAT (43_system.md). -/

namespace Sys2Proof.Machine

/-- R170 STAT. -/
def execStat (s : State) : Result := .next (respond (statusRegisters s.blk) s)

end Sys2Proof.Machine
end

