-- ==== Sys2Proof/Machine/Dispatch.lean ====
section
/-! DEFINITION. One arm per command of CSI-1 (R77), each a call of its meaning. -/

namespace Sys2Proof.Machine

def exec (i : Instr) (s : State) : Host.Outcome State Fault Refusal :=
  match i with
  | .sinit rate cap ds => Sys2Proof.Machine.execSinit rate cap ds s
  | .absorb data => Sys2Proof.Machine.execAbsorb data s
  | .squeeze n => Sys2Proof.Machine.execSqueeze n s
  | .hinit var data => Sys2Proof.Machine.execHinit var data s
  | .update data => Sys2Proof.Machine.execUpdate data s
  | .digest => Sys2Proof.Machine.execDigest s
  | .hexdigest => Sys2Proof.Machine.execHexdigest s
  | .rbind psel => Sys2Proof.Machine.execRbind psel s
  | .getrandbits k => Sys2Proof.Machine.execGetrandbits k s
  | .random => Sys2Proof.Machine.execRandom s
  | .stat => Sys2Proof.Machine.execStat s

end Sys2Proof.Machine
end

