-- ==== Sys2Proof/Machine/Step.lean ====
section
/-! DEFINITION. One step of the machine: the reset event where the platform has signalled it, else one whole command
(R58, R85), from taking its bytes off the command stream to its response. -/

namespace Sys2Proof.Machine

/-- R210, R85, R42. An undefined word fails with `IllegalCommand` and has no payload (R81). -/
def step (s : State) : Host.Outcome State Fault Refusal :=
  if s.resetPending then .next (resetEvent s)
  else
    match decode s.cmd with
    | .command i rest       => exec i (takeCommand (4 + i.payload.length) rest s)
    | .undefinedWord _ rest => .next (raise .illegalCommand (takeCommand 4 rest s))
    | .endOfStream          => .refused .noCommand
    | .truncatedWord        => .refused .truncatedWord
    | .truncatedPayload _   => .refused .truncatedPayload

/-- The state whose next step runs the instruction with bits `w` (`tableBytes`): its bytes stand at the front of the command
stream in place of as many bytes there, and no reset is pending. -/
def State.withFetchWord (s : State) (nbits w : Nat) : State :=
  { s with
    cmd := tableBytes nbits w ++ s.cmd.drop (tableBytes nbits w).length
    resetPending := false }

end Sys2Proof.Machine
end

