-- ==== Sys2Proof/Machine/Reference.lean ====
section
/-! DEFINITION. The spec's own second descriptions of what the machine does, which claims compare the machine with: the error
of a command from the tables of R82 to R85, the output lengths of R87, the padding sequence of R105, the chunk loop of R106
and the sponge function of R111. The machine does not use this file. -/

namespace Sys2Proof.Machine

/-! ### Errors (R82, R83, R85, R188) -/

/-- R82: a reserved field value. -/
def reservedField : Instr → Bool
  | .sinit _ _ ds  => ds = 0x00 || 0x80 ≤ ds.toNat
  | .getrandbits k => k = 0
  | .absorb _ | .squeeze _ | .hinit _ _ | .update _ | .digest | .hexdigest | .rbind _ | .random | .stat => false

/-- R83: the table of availability by mode (and `PSEL`). -/
def availableIn (i : Instr) (b : Block) : Bool :=
  match i, b.MODE, b.PSEL with
  | .sinit _ _ _,   _,     _    => true
  | .hinit _ _,     _,     _    => true
  | .absorb _,      .raw,  _    => true
  | .absorb _,      _,     _    => false
  | .squeeze _,     .raw,  _    => true
  | .squeeze _,     _,     _    => false
  | .update _,      .hash, _    => true
  | .update _,      _,     _    => false
  | .digest,        .hash, _    => true
  | .digest,        _,     _    => false
  | .hexdigest,     .hash, _    => true
  | .hexdigest,     _,     _    => false
  | .rbind _,       _,     _    => true
  | .stat,          _,     _    => true
  | .getrandbits _, _,     .ext => true
  | .getrandbits _, .raw,  .int => true
  | .getrandbits _, _,     .int => false
  | .random,        _,     .ext => true
  | .random,        .raw,  .int => true
  | .random,        _,     .int => false

/-- R182, R183: the command's own check. -/
def ownError (i : Instr) (b : Block) : Option Error :=
  match i with
  | .sinit rate cap _ =>
    if rate.toNat < 1 ∨ cap.toNat < 1 ∨ rate.toNat + cap.toNat ≠ 200 then some .configurationError else none
  | .hinit var _ => if 3 < var.toNat then some .configurationError else none
  | .absorb _ => if b.PHASE = .squeezing then some .stateError else none
  | .update _ => if b.FINALIZED = true then some .stateError else none
  | .squeeze _ | .digest | .hexdigest | .rbind _ | .getrandbits _ | .random | .stat => none

/-- R85, R188: the one error of a command, the first its decode order meets; none where it succeeds. -/
def errorOf (i : Instr) (b : Block) : Option Error :=
  if reservedField i then some .illegalCommand
  else if availableIn i b then ownError i b
  else some .illegalCommand

/-- R87: `len(out)` of a successful command. -/
def outputLength (i : Instr) (b : Block) : Nat :=
  match i with
  | .sinit _ _ _ | .absorb _ | .hinit _ _ | .update _ | .rbind _ => 0
  | .squeeze n     => n.toNat
  | .digest        => b.OUTLEN.toNat
  | .hexdigest     => 2 * b.OUTLEN.toNat
  | .getrandbits k => ceilDiv k.toNat 8
  | .random        => 8
  | .stat          => 9

/-! ### Runs (R58) -/

/-- R58: "The effect of a sequence of commands is the composition of their effects in the order the port received
them". -/
def execAll : List Instr → State → Result
  | [], s => .next s
  | i :: is, s =>
    match exec i s with
    | .next t    => execAll is t
    | .fault r   => .fault r
    | .refused r => .refused r

/-! ### The padding (R105) and the chunk loop (R106) -/

/-- R105: the `q` padding bytes. -/
def padBytes (d : Byte) (q : Nat) : List Byte :=
  if q = 1 then [d ||| 0x80] else d :: (List.replicate (q - 2) 0x00 ++ [0x80])

/-- R106: the while loop as the spec writes it, with `t = min(n - len(out), RATE - SCUR)` bytes a round; `fuel` bounds
the rounds, and `n` rounds are always enough. -/
def squeezeChunks : Nat → Nat → State → List Byte × State
  | 0, _, s => ([], s)
  | fuel + 1, n, s =>
    if n = 0 then ([], s)
    else
      let t := min n (s.blk.RATE.toNat - s.blk.SCUR.toNat)
      let out := s.blk.S.readBytes s.blk.SCUR.toNat t
      let u := setScur (s.blk.SCUR + BitVec.ofNat 8 t) s
      let v := if u.blk.SCUR = u.blk.RATE then setScur 0 (permuteS u) else u
      let r := squeezeChunks fuel (n - t) v
      (out ++ r.1, r.2)

/-! ### The sponge function in closed form (R111) -/

/-- R111: `T ^ (P || zeros(200 - r))`. -/
def xorBlock (t p : List Byte) : List Byte :=
  List.zipWith (· ^^^ ·) t (p ++ List.replicate (Config.stateBytes - p.length) 0x00)

/-- R111: `T_(i+1) = permute(T_i ^ (P_i || zeros(200 - r)))` over the first `j` blocks of `p`. -/
def absorbBlocks (f : List Byte → List Byte) (r : Nat) : Nat → List Byte → List Byte → List Byte
  | 0, t, _ => t
  | j + 1, t, p => absorbBlocks f r j (f (xorBlock t (p.take r))) (p.drop r)

/-- R111: `U_0[0:r] || U_1[0:r] || ...`, `j` blocks of it. -/
def squeezeBlocks (f : List Byte → List Byte) (r : Nat) : Nat → List Byte → List Byte
  | 0, _ => []
  | j + 1, u => u.take r ++ squeezeBlocks f r j (f u)

/-- R111: the first `n` bytes of the output stream `Z` of the message `m`, for the permutation `f`, rate `r` and suffix `d`. -/
def spongeFunction (f : List Byte → List Byte) (r : Nat) (d : Byte) (m : List Byte) (n : Nat) : List Byte :=
  let p := m ++ padBytes d (r - m.length % r)
  let u := absorbBlocks f r (p.length / r) (List.replicate Config.stateBytes 0x00) p
  (squeezeBlocks f r (n / r + 1) u).take n

end Sys2Proof.Machine
end

