-- ==== Sys2Proof/Safety.lean ====
section
/-! DEFINITION. What a good state is: the invariants of R20, R27 and R33, "between any two commands", and when two states have
the same environment. -/

namespace Sys2Proof.Machine

/-- R27 (with R26 and R20's widths): whenever MODE is not NONE. -/
structure SpongeInv (b : Block) : Prop where
  rateMin       : 1 ≤ b.RATE.toNat
  rateMax       : b.RATE.toNat ≤ 199
  sum           : b.RATE.toNat + b.CAP.toNat = 200
  acurLt        : b.ACUR.toNat < b.RATE.toNat
  scurLt        : b.SCUR.toNat < b.RATE.toNat
  squeezingAcur : b.PHASE = .squeezing → b.ACUR = 0
  absorbingScur : b.PHASE = .absorbing → b.SCUR = 0
  dsLegal       : dsReserved b.DSBYTE = false

/-- R33: invariants of MODE = RAW. -/
structure RawInv (b : Block) : Prop where
  notFinalized : b.FINALIZED = false
  outlen       : b.OUTLEN = 0
  dcache       : b.DCACHE = []

/-- R33: invariants of MODE = HASH. That `DCACHE[0 .. OUTLEN-1]` is the digest is said through `S`: the digest is the
first `OUTLEN` bytes of the one permuted state, which stays in `S` (R133, R140). -/
structure HashInv (hashDsbyte : Byte) (b : Block) : Prop where
  row       : ∃ v ∈ variantTable, b.RATE = v.rate ∧ b.CAP = v.cap ∧ b.OUTLEN = v.outlen
  ds        : b.DSBYTE = hashDsbyte
  phase     : b.PHASE = .squeezing ↔ b.FINALIZED = true
  finCursor : b.FINALIZED = true → b.ACUR = 0 ∧ b.SCUR = b.OUTLEN
  finDigest : b.FINALIZED = true → ∀ j, b.DCACHE.read j = if j < b.OUTLEN.toNat then b.S.read j else 0
  notFin    : b.FINALIZED = false → b.SCUR = 0 ∧ b.DCACHE = []

/-- R33: "Invariants of MODE = NONE: every element but `PSEL` and `ERR` has its reset value." -/
def NoneInv (b : Block) : Prop := b = { Block.reset with PSEL := b.PSEL, ERR := b.ERR }

/-- The invariant of the machine between any two steps. -/
structure Inv (s : State) : Prop where
  sWf        : s.blk.S.wf Config.stateBytes = true
  dcacheWf   : s.blk.DCACHE.wf Config.dcacheBytes = true
  errLegal   : s.blk.ERR.toNat ≤ 3
  hashDsbyte : dsReserved s.par.hashDsbyte = false
  sponge     : s.blk.MODE ≠ .none → SpongeInv s.blk
  none       : s.blk.MODE = .none → NoneInv s.blk
  raw        : s.blk.MODE = .raw → RawInv s.blk
  hash       : s.blk.MODE = .hash → HashInv s.par.hashDsbyte s.blk

/-- Two states with the same parameters (R39) and the same host's side of the port: the command stream, the read offset and
the reset signal. -/
def SameEnv (s t : State) : Prop :=
  t.par = s.par ∧ t.cmd = s.cmd ∧ t.cpos = s.cpos ∧ t.resetPending = s.resetPending

/-- A state from which a run goes on: it meets the invariant, and what is left of its command stream is a program
(R90). -/
def Runnable (s : State) : Prop := Inv s ∧ WellFormedStream s.cmd

end Sys2Proof.Machine
end

