-- ==== Sys2Proof/Certificates/Slice0/Obligations.lean ====
section
/-! DEFINITION. The statements for the provers: what the commands, the decoder and the machine do, from the numbered rules
of the spec. -/

open Sys2Proof Sys2Proof.Machine

/-! ### Encoding -/

/-- R77, R79: the word of each command, written out from the opcode map, decodes to the command. -/
def Obligations.OpcodeWordsDecode : Prop :=
  decode [0x10, 0x06, 0x40, 0x88] = .command (.sinit 136 64 0x06) [] ∧
  decode [0x11, 0x00, 0x00, 0x03, 0x61, 0x62, 0x63] = .command (.absorb [0x61, 0x62, 0x63]) [] ∧
  decode [0x12, 0x01, 0x02, 0x03] = .command (.squeeze 0x010203) [] ∧
  decode [0x20, 0x03, 0x00, 0x01, 0x61] = .command (.hinit 3 [0x61]) [] ∧
  decode [0x21, 0x00, 0x00, 0x01, 0x62, 0x22] = .command (.update [0x62]) [0x22] ∧
  decode [0x22, 0x00, 0x00, 0x00] = .command .digest [] ∧
  decode [0x23, 0x00, 0x00, 0x00] = .command .hexdigest [] ∧
  decode [0x30, 0x00, 0x00, 0x01] = .command (.rbind .ext) [] ∧
  decode [0x31, 0x00, 0x00, 0x0C] = .command (.getrandbits 12) [] ∧
  decode [0x32, 0x00, 0x00, 0x00] = .command .random [] ∧
  decode [0x40, 0x00, 0x00, 0x00] = .command .stat []

/-- R70 to R80: decoding the bytes of a well-formed command gives it back, with every operand, whatever follows. -/
def Obligations.DecodeOfEncode : Prop :=
  ∀ (i : Instr) (rest : List Byte), i.wellFormed = true → decode (encode i ++ rest) = .command i rest

/-- R70 to R80: what decodes to a command is that command's bytes and the rest, so that each word has one meaning. -/
def Obligations.EncodeOfDecode : Prop :=
  ∀ (bytes : List Byte) (i : Instr) (rest : List Byte), decode bytes = .command i rest →
    i.wellFormed = true ∧ encode i ++ rest = bytes

/-- R77: "No two rows overlap". -/
def Obligations.OpcodeRowsAreDisjoint : Prop :=
  ∀ (w : Word) (r q : OpcodeRow), r ∈ opcodeTable → q ∈ opcodeTable →
    w &&& r.mask = r.pat → w &&& q.mask = q.pat → r = q

/-- R81: the undefined words are the ones it lists; such a word has no payload, fails with `IllegalCommand` and changes no
state but `ERR`. -/
def Obligations.UndefinedWordsFail : Prop :=
  ∀ w : Word,
    (matchRow w = none ↔
      fieldOp w ∉ [0x10, 0x11, 0x12, 0x20, 0x21, 0x22, 0x23, 0x30, 0x31, 0x32, 0x40] ∨
      (fieldOp w ∈ [0x22, 0x23, 0x32, 0x40] ∧ w.extractLsb' 0 24 ≠ 0) ∨
      (fieldOp w = 0x30 ∧ w.extractLsb' 1 23 ≠ 0)) ∧
    (matchRow w = none →
      paylen w = 0 ∧
      ∀ (s : State) (rest : List Byte), s.resetPending = false → s.cmd = wordBytes w ++ rest →
        step s = .next { s with
          blk := { s.blk with ERR := 0x03 }, cmd := rest, cpos := s.cpos + 4, resp := s.resp ++ [0x03] })

/-! ### The machine's step -/

/-- R42, R85: where the command stream decodes to a command and no reset is pending, a step is that command's execution,
with its bytes taken off the stream and the read offset moved past them. -/
def Obligations.StepRunsTheDecodedCommand : Prop :=
  ∀ (s : State) (i : Instr) (rest : List Byte), s.resetPending = false → decode s.cmd = .command i rest →
    step s = exec i { s with cmd := rest, cpos := s.cpos + (4 + i.payload.length) }

/-- R210: the reset event. That the platform's signal is the field `resetPending`, which the next step takes, is the
model's own (log entry 3), as is the count of permutations starting anew. -/
def Obligations.ResetEventClearsTheBlock : Prop :=
  ∀ s : State, s.resetPending = true →
    ∃ t, step s = .next t ∧
      (∀ a, t.blk.S.read a = 0x00) ∧ t.blk.RATE = 0 ∧ t.blk.CAP = 0 ∧ t.blk.DSBYTE = 0 ∧ t.blk.ACUR = 0 ∧
      t.blk.SCUR = 0 ∧ t.blk.PHASE = .absorbing ∧ t.blk.MODE = .none ∧ t.blk.OUTLEN = 0 ∧
      t.blk.FINALIZED = false ∧ (∀ a, t.blk.DCACHE.read a = 0x00) ∧ t.blk.PSEL = .int ∧ t.blk.ERR = 0 ∧
      t.ext = s.ext ∧ t.par = s.par ∧ t.cmd = s.cmd ∧ t.cpos = s.cpos ∧ t.resp = s.resp ∧
      t.resetPending = false

/-- R45: the value of every element after reset, and the untouched provider. -/
def Obligations.ResetValuesOfEveryElement : Prop :=
  (∀ a, State.reset.blk.S.read a = 0x00) ∧ State.reset.blk.RATE = 0 ∧ State.reset.blk.CAP = 0 ∧
  State.reset.blk.DSBYTE = 0 ∧ State.reset.blk.ACUR = 0 ∧ State.reset.blk.SCUR = 0 ∧
  State.reset.blk.PHASE = .absorbing ∧ State.reset.blk.MODE = .none ∧ State.reset.blk.OUTLEN = 0 ∧
  State.reset.blk.FINALIZED = false ∧ (∀ a, State.reset.blk.DCACHE.read a = 0x00) ∧
  State.reset.blk.PSEL = .int ∧ State.reset.blk.ERR = 0 ∧
  ∀ s : State, (resetEvent s).blk = State.reset.blk ∧ (resetEvent s).ext = s.ext

/-- R27, R33: the invariant holds at reset. -/
def Obligations.InvariantHoldsAtReset : Prop := Inv State.reset

/-- R27, R33: every step from a state that meets the invariant leads to one that meets it. -/
def Obligations.InvariantKeptByEveryStep : Prop :=
  ∀ s t : State, Inv s → step s = .next t → Inv t

/-- R190, R191: from a state that meets the invariant no step faults, and a refusal says that the stream is used up or
truncated (the refusals are the model's: log entries 6 and 16). -/
def Obligations.NoFaultUnderTheInvariant : Prop :=
  ∀ s : State, Inv s →
    (∀ f, step s ≠ .fault f) ∧
    (∀ r, step s = .refused r → r = .noCommand ∨ r = .truncatedWord ∨ r = .truncatedPayload)

/-- R58, R90, R222: on a well-formed command stream every step completes and leaves a well-formed command stream. -/
def Obligations.ProgramsNeverGetStuck : Prop :=
  ∀ s : State, Runnable s → (s.resetPending = true ∨ s.cmd ≠ []) → ∃ t, step s = .next t ∧ Runnable t

/-- R222, R223: a run of a well-formed command stream reaches its end, in at most a quarter as many steps as the stream
has bytes, with `cpos` at the end of the stream; there the block is idle, which the model says by refusing a further step with `noCommand`
(log entry 6, the model's choice). -/
def Obligations.ProgramsRunToTheirEnd : Prop :=
  ∀ s : State, Runnable s → s.resetPending = false →
    ∃ (k : Nat) (t : State), Sys2Proof.core.run k s = .next t ∧ Inv t ∧ t.cmd = [] ∧
      t.cpos = s.cpos + s.cmd.length ∧ 4 * k ≤ s.cmd.length ∧ step t = .refused .noCommand

/-- R90: a stream that ends inside a command word or inside a payload is no program, and the model refuses it when
it comes to the truncated command (log entry 16). -/
def Obligations.TruncatedStreamsAreRefused : Prop :=
  ∀ s : State, s.resetPending = false →
    (0 < s.cmd.length → s.cmd.length < 4 →
      ¬ WellFormedStream s.cmd ∧ step s = .refused .truncatedWord) ∧
    (∀ (w : Word) (data : List Byte), s.cmd = wordBytes w ++ data → data.length < paylen w →
      ¬ WellFormedStream s.cmd ∧ step s = .refused .truncatedPayload)

/-- R86: "Every command produces exactly one response": a status byte, and the output, which is empty unless the status
is OK. -/
def Obligations.OneResponsePerCommand : Prop :=
  ∀ s t : State, s.resetPending = false → step s = .next t →
    ∃ (status : Byte) (out : List Byte), t.resp = s.resp ++ status :: out ∧
      (status = 0x00 ∨ status = 0x01 ∨ status = 0x02 ∨ status = 0x03) ∧ (status ≠ 0x00 → out = [])

/-- R42, R78, R187: a step takes the command word and its payload off the stream, whether the command succeeds, fails or
is undefined. -/
def Obligations.StepTakesTheWholeCommand : Prop :=
  ∀ (s : State) (w : Word) (data rest : List Byte), Inv s → s.resetPending = false →
    s.cmd = wordBytes w ++ data ++ rest → data.length = paylen w →
    ∃ t, step s = .next t ∧ t.cmd = rest ∧ t.cpos = s.cpos + 4 + paylen w

/-! ### All commands -/

/-- R87: every command that no rule makes fail completes, and its output has the length of the table. -/
def Obligations.SuccessfulCommandsComplete : Prop :=
  ∀ (i : Instr) (s : State), Inv s → errorOf i s.blk = none →
    ∃ (t : State) (out : List Byte), exec i s = .next t ∧ t.resp = s.resp ++ 0x00 :: out ∧
      out.length = outputLength i s.blk ∧ t.blk.ERR = s.blk.ERR

/-- R186: a command that R82, R83, R182 or R183 makes fail, or an undefined word, writes `ERR` and nothing else, takes nothing from a provider
and responds with the code alone; the error is the first of R85's order. -/
def Obligations.FailingCommandsWriteOnlyErr : Prop :=
  (∀ (i : Instr) (s : State) (e : Error), errorOf i s.blk = some e →
    exec i s = .next { s with
      blk := { s.blk with ERR := e.code }, resp := s.resp ++ [e.code] }) ∧
  ∀ (s : State) (w : Word) (rest : List Byte), s.resetPending = false → decode s.cmd = .undefinedWord w rest →
    step s = .next { s with
      blk := { s.blk with ERR := 0x03 }, resp := s.resp ++ [0x03], cmd := rest, cpos := s.cpos + 4 }

/-- R181: which commands report which code. -/
def Obligations.ErrorsOfEachCommand : Prop :=
  Error.configurationError.code = 0x01 ∧ Error.stateError.code = 0x02 ∧ Error.illegalCommand.code = 0x03 ∧
  ∀ (i : Instr) (s t : State), exec i s = .next t →
    (t.resp = s.resp ++ [0x01] → (∃ rate cap ds, i = .sinit rate cap ds) ∨ ∃ var data, i = .hinit var data) ∧
    (t.resp = s.resp ++ [0x02] → (∃ data, i = .absorb data) ∨ ∃ data, i = .update data)

/-- R36: `ERR` is written by failing commands, with their code, and by no other. -/
def Obligations.ErrIsTheLastFailure : Prop :=
  ∀ (i : Instr) (s t : State), exec i s = .next t →
    (∃ out, t.resp = s.resp ++ 0x00 :: out ∧ t.blk.ERR = s.blk.ERR) ∨
    (∃ e : Error, t.resp = s.resp ++ [e.code] ∧ t.blk.ERR = e.code)

/-- R36: `ERR` "is read only by STAT": its value changes nothing any other command does, but for itself. -/
def Obligations.ErrInfluencesOnlyStat : Prop :=
  ∀ (i : Instr) (s t : State) (x : Byte), i ≠ .stat → exec i s = .next t →
    ∃ y : Byte, exec i { s with blk := { s.blk with ERR := x } } =
      .next { t with blk := { t.blk with ERR := y } }

/-- R22, R26, R28, R29, R34, R39, R40: what a command leaves alone. Only a successful SINIT or HINIT writes `RATE`, `CAP`,
`DSBYTE`, `MODE` and `OUTLEN`; only RBIND writes `PSEL`; only GETRANDBITS and RANDOM with `PSEL = 1` move the external
provider; none touches the parameters, the command stream or the reset signal. -/
def Obligations.WhatCommandsLeaveAlone : Prop :=
  ∀ (i : Instr) (s t : State), exec i s = .next t →
    SameEnv s t ∧
    (((∀ rate cap ds, i ≠ .sinit rate cap ds) ∧ (∀ var data, i ≠ .hinit var data)) ∨ errorOf i s.blk ≠ none →
      t.blk.RATE = s.blk.RATE ∧ t.blk.CAP = s.blk.CAP ∧ t.blk.DSBYTE = s.blk.DSBYTE ∧
      t.blk.MODE = s.blk.MODE ∧ t.blk.OUTLEN = s.blk.OUTLEN) ∧
    ((∀ p, i ≠ .rbind p) → t.blk.PSEL = s.blk.PSEL) ∧
    (s.blk.PSEL = .int ∨ ((∀ k, i ≠ .getrandbits k) ∧ i ≠ .random) → t.ext = s.ext)

/-- R30, R110: within one instance `PHASE` never goes back to ABSORBING and `FINALIZED` never goes back to 0. -/
def Obligations.FinalizationIsIrreversible : Prop :=
  ∀ (i : Instr) (s t : State), (∀ rate cap ds, i ≠ .sinit rate cap ds) → (∀ var data, i ≠ .hinit var data) →
    exec i s = .next t →
    (s.blk.PHASE = .squeezing → t.blk.PHASE = .squeezing) ∧
    (s.blk.FINALIZED = true → t.blk.FINALIZED = true)

/-! ### The Sponge -/

/-- R101: SINIT: its encoding; successful and failing. -/
def Obligations.SinitConstructsASponge : Prop :=
  ∀ (rate cap ds : Byte) (s : State),
    encode (.sinit rate cap ds) = [0x10, ds, cap, rate] ∧
    (ds = 0x00 ∨ 0x80 ≤ ds.toNat →
      exec (.sinit rate cap ds) s = .next { s with
        blk := { s.blk with ERR := 0x03 }, resp := s.resp ++ [0x03] }) ∧
    (ds ≠ 0x00 → ds.toNat < 0x80 → (rate = 0 ∨ cap = 0 ∨ rate.toNat + cap.toNat ≠ 200) →
      exec (.sinit rate cap ds) s = .next { s with
        blk := { s.blk with ERR := 0x01 }, resp := s.resp ++ [0x01] }) ∧
    (ds ≠ 0x00 → ds.toNat < 0x80 → rate ≠ 0 → cap ≠ 0 → rate.toNat + cap.toNat = 200 →
      exec (.sinit rate cap ds) s = .next { s with
        blk := { S := [], RATE := rate, CAP := cap, DSBYTE := ds, ACUR := 0, SCUR := 0, PHASE := .absorbing,
                 MODE := .raw, OUTLEN := 0, FINALIZED := false, DCACHE := [],
                 PSEL := s.blk.PSEL, ERR := s.blk.ERR }
        resp := s.resp ++ [0x00] })

/-- R103: ABSORB: its encoding; failing and successful: the error does not depend on the data; on success only `S` and `ACUR` change,
the cursor and the count of permutations are as derived there, and data that stays inside the block is exclusive-ored into
`S` from `ACUR` on and into no other byte. -/
def Obligations.AbsorbFeedsTheSponge : Prop :=
  ∀ (data : List Byte) (s : State),
    encode (.absorb data) = 0x11 :: (beBytes data.length 3 ++ data) ∧
    (s.blk.MODE ≠ .raw →
      exec (.absorb data) s = .next { s with
        blk := { s.blk with ERR := 0x03 }, resp := s.resp ++ [0x03] }) ∧
    (s.blk.MODE = .raw → s.blk.PHASE = .squeezing →
      exec (.absorb data) s = .next { s with
        blk := { s.blk with ERR := 0x02 }, resp := s.resp ++ [0x02] }) ∧
    (Inv s → s.blk.MODE = .raw → s.blk.PHASE = .absorbing →
      ∃ t, exec (.absorb data) s = .next t ∧
        t = { s with
          blk := { s.blk with S := t.blk.S, ACUR := t.blk.ACUR }
          resp := s.resp ++ [0x00], permuteCalls := t.permuteCalls } ∧
        t.blk.ACUR.toNat = (s.blk.ACUR.toNat + data.length) % s.blk.RATE.toNat ∧
        t.permuteCalls = s.permuteCalls + (s.blk.ACUR.toNat + data.length) / s.blk.RATE.toNat ∧
        (s.blk.ACUR.toNat + data.length < s.blk.RATE.toNat →
          ∀ a, t.blk.S.read a =
            if s.blk.ACUR.toNat ≤ a ∧ a < s.blk.ACUR.toNat + data.length then
              s.blk.S.read a ^^^ data.getD (a - s.blk.ACUR.toNat) 0
            else s.blk.S.read a))

/-- R102: the permutation is eager: the byte that fills the block is exclusive-ored in, and all 200 bytes are permuted
at once. -/
def Obligations.AbsorbPermutesAtTheBoundary : Prop :=
  ∀ (x : Byte) (s : State), Inv s → s.blk.MODE = .raw → s.blk.PHASE = .absorbing →
    s.blk.ACUR.toNat + 1 = s.blk.RATE.toNat →
    ∃ t, exec (.absorb [x]) s = .next t ∧ t.blk.ACUR = 0 ∧ t.permuteCalls = s.permuteCalls + 1 ∧
      t.blk.S.readBytes 0 200 = permuteBytes s.par.permute ((List.range 200).map fun a =>
        if a = s.blk.ACUR.toNat then s.blk.S.read a ^^^ x else s.blk.S.read a)

/-- R108: ABSORB `a` followed by ABSORB `b` leaves the block as ABSORB `a || b` does, and an empty ABSORB changes
nothing. -/
def Obligations.AbsorbConcatenates : Prop :=
  ∀ (a b : List Byte) (s : State), Inv s → s.blk.MODE = .raw → s.blk.PHASE = .absorbing →
    exec (.absorb []) s = .next { s with resp := s.resp ++ [0x00] } ∧
    ∃ t u, exec (.absorb a) s = .next t ∧ exec (.absorb b) t = .next u ∧
      exec (.absorb (a ++ b)) s = .next { u with resp := s.resp ++ [0x00] }

/-- R105: the padding step is the absorption of the padding bytes, and then `SCUR <- 0`, `PHASE <- SQUEEZING`. -/
def Obligations.PaddingIsAnAbsorbedPad : Prop :=
  ∀ s : State, Inv s → s.blk.MODE ≠ .none → s.blk.PHASE = .absorbing →
    ∃ t, absorb (padBytes s.blk.DSBYTE (s.blk.RATE.toNat - s.blk.ACUR.toNat)) s = t ∧
      finpad s = { t with blk := { t.blk with SCUR := 0, PHASE := .squeezing } }

/-- R106: the squeeze step is the loop of the spec, chunk by chunk. -/
def Obligations.SqueezeIsTheChunkLoop : Prop :=
  ∀ (n : Nat) (s : State), Inv s → s.blk.MODE ≠ .none →
    squeeze n s = squeezeChunks n n (finalizeSponge s)

/-- R107: SQUEEZE: its encoding; failing and successful: `n` bytes, read in index order from `SCUR` on while they last in the block; the
sponge is finalized first where it was not; the cursor and the count of permutations are as derived there. -/
def Obligations.SqueezeReturnsTheNextBytes : Prop :=
  ∀ (n : BitVec 24) (s : State),
    encode (.squeeze n) = 0x12 :: beBytes n.toNat 3 ∧
    (s.blk.MODE ≠ .raw →
      exec (.squeeze n) s = .next { s with
        blk := { s.blk with ERR := 0x03 }, resp := s.resp ++ [0x03] }) ∧
    (Inv s → s.blk.MODE = .raw →
      ∃ (t : State) (out : List Byte), exec (.squeeze n) s = .next t ∧ out.length = n.toNat ∧
        t = { s with
          blk := { s.blk with S := t.blk.S, ACUR := 0, SCUR := t.blk.SCUR, PHASE := .squeezing }
          resp := s.resp ++ 0x00 :: out, permuteCalls := t.permuteCalls } ∧
        t.blk.SCUR.toNat = (s.blk.SCUR.toNat + n.toNat) % s.blk.RATE.toNat ∧
        t.permuteCalls = s.permuteCalls + (if s.blk.PHASE = .absorbing then 1 else 0) +
          (s.blk.SCUR.toNat + n.toNat) / s.blk.RATE.toNat ∧
        (s.blk.PHASE = .squeezing → s.blk.SCUR.toNat + n.toNat < s.blk.RATE.toNat →
          out = (List.range n.toNat).map (fun j => s.blk.S.read (s.blk.SCUR.toNat + j)) ∧
          t.blk.S = s.blk.S))

/-- R109: SQUEEZE `m` followed by SQUEEZE `n` returns, concatenated, what SQUEEZE `m + n` returns, and leaves the same
state. -/
def Obligations.SqueezesContinueOneStream : Prop :=
  ∀ (m n k : BitVec 24) (s : State), Inv s → s.blk.MODE = .raw → k.toNat = m.toNat + n.toNat →
    ∃ (t u : State) (a b : List Byte),
      exec (.squeeze m) s = .next t ∧ t.resp = s.resp ++ 0x00 :: a ∧
      exec (.squeeze n) t = .next u ∧ u.resp = t.resp ++ 0x00 :: b ∧
      exec (.squeeze k) s = .next { u with resp := s.resp ++ 0x00 :: (a ++ b) }

/-- R111: the output of a RAW instance that absorbs the pieces of `M` is the sponge function of the closed form, for
every permutation. -/
def Obligations.RawSpongeIsTheSpongeFunction : Prop :=
  ∀ (rate cap ds : Byte) (pieces : List (List Byte)) (n : BitVec 24) (s : State),
    ds ≠ 0x00 → ds.toNat < 0x80 → rate ≠ 0 → cap ≠ 0 → rate.toNat + cap.toNat = 200 →
    ∃ t, execAll (.sinit rate cap ds :: (pieces.map .absorb ++ [.squeeze n])) s = .next t ∧
      t.resp = s.resp ++ List.replicate (1 + pieces.length) 0x00 ++
        0x00 :: spongeFunction (permuteBytes s.par.permute) rate.toNat ds pieces.flatten n.toNat

/-- R112: how often an instance calls `Permute()`: `L div RATE` times absorbing, once padding, `n div RATE` times
squeezing. -/
def Obligations.PermutationCalls : Prop :=
  ∀ (rate cap ds : Byte) (pieces : List (List Byte)) (asks : List (BitVec 24)) (s : State),
    ds ≠ 0x00 → ds.toNat < 0x80 → rate ≠ 0 → cap ≠ 0 → rate.toNat + cap.toNat = 200 → asks ≠ [] →
    ∃ t, execAll (.sinit rate cap ds :: (pieces.map .absorb ++ asks.map .squeeze)) s = .next t ∧
      t.permuteCalls = s.permuteCalls + pieces.flatten.length / rate.toNat + 1 +
        (asks.map (·.toNat)).sum / rate.toNat

/-- R113: no output byte is read from the capacity portion and no input byte is exclusive-ored into it. Two squeezing
instances that differ only in the capacity bytes of `S` answer a request inside the block alike, and data that ends inside the
block leaves the capacity bytes as they are. -/
def Obligations.CapacityIsNeverExposed : Prop :=
  (∀ (n : BitVec 24) (s t : State) (S' : Memory), Inv s → Inv { s with blk := { s.blk with S := S' } } →
    s.blk.MODE = .raw → s.blk.PHASE = .squeezing →
    (∀ a, a < s.blk.RATE.toNat → S'.read a = s.blk.S.read a) →
    s.blk.SCUR.toNat + n.toNat < s.blk.RATE.toNat →
    exec (.squeeze n) s = .next t →
    ∃ u, exec (.squeeze n) { s with blk := { s.blk with S := S' } } = .next u ∧ u.resp = t.resp ∧
      ∀ a, s.blk.RATE.toNat ≤ a → u.blk.S.read a = S'.read a) ∧
  (∀ (data : List Byte) (s t : State), Inv s → s.blk.MODE = .raw → s.blk.PHASE = .absorbing →
    s.blk.ACUR.toNat + data.length < s.blk.RATE.toNat → exec (.absorb data) s = .next t →
    ∀ a, s.blk.RATE.toNat ≤ a → t.blk.S.read a = s.blk.S.read a)

/-! ### The Hash Engine -/

/-- R131: HINIT: its encoding; failing and successful: the new instance, and the initial message absorbed "exactly as UPDATE would absorb
it". -/
def Obligations.HinitConstructsAHashEngine : Prop :=
  ∀ (var : Byte) (data : List Byte) (s : State),
    encode (.hinit var data) = 0x20 :: var :: (beBytes data.length 2 ++ data) ∧
    (3 < var.toNat →
      exec (.hinit var data) s = .next { s with
        blk := { s.blk with ERR := 0x01 }, resp := s.resp ++ [0x01] }) ∧
    (∀ rate cap outlen : Byte,
      (var, rate, cap, outlen) ∈ ([(0, 144, 56, 28), (1, 136, 64, 32), (2, 104, 96, 48), (3, 72, 128, 64)] :
        List (Byte × Byte × Byte × Byte)) →
      ∃ t u,
        t = { s with
          blk := { S := [], RATE := rate, CAP := cap, DSBYTE := s.par.hashDsbyte, ACUR := 0, SCUR := 0,
                   PHASE := .absorbing, MODE := .hash, OUTLEN := outlen, FINALIZED := false, DCACHE := [],
                   PSEL := s.blk.PSEL, ERR := s.blk.ERR }
          resp := s.resp ++ [0x00] } ∧
        exec (.hinit var []) s = .next t ∧ exec (.update data) t = .next u ∧
        exec (.hinit var data) s = .next { u with resp := s.resp ++ [0x00] })

/-- R132: UPDATE: its encoding; failing and successful, as ABSORB with the lock of the Hash Engine. -/
def Obligations.UpdateFeedsTheHashEngine : Prop :=
  ∀ (data : List Byte) (s : State),
    encode (.update data) = 0x21 :: (beBytes data.length 3 ++ data) ∧
    (s.blk.MODE ≠ .hash →
      exec (.update data) s = .next { s with
        blk := { s.blk with ERR := 0x03 }, resp := s.resp ++ [0x03] }) ∧
    (s.blk.MODE = .hash → s.blk.FINALIZED = true →
      exec (.update data) s = .next { s with
        blk := { s.blk with ERR := 0x02 }, resp := s.resp ++ [0x02] }) ∧
    (Inv s → s.blk.MODE = .hash → s.blk.FINALIZED = false →
      ∃ t, exec (.update data) s = .next t ∧
        t = { s with
          blk := { s.blk with S := t.blk.S, ACUR := t.blk.ACUR }
          resp := s.resp ++ [0x00], permuteCalls := t.permuteCalls } ∧
        t.blk.ACUR.toNat = (s.blk.ACUR.toNat + data.length) % s.blk.RATE.toNat ∧
        t.permuteCalls = s.permuteCalls + (s.blk.ACUR.toNat + data.length) / s.blk.RATE.toNat ∧
        (s.blk.ACUR.toNat + data.length < s.blk.RATE.toNat →
          ∀ a, t.blk.S.read a =
            if s.blk.ACUR.toNat ≤ a ∧ a < s.blk.ACUR.toNat + data.length then
              s.blk.S.read a ^^^ data.getD (a - s.blk.ACUR.toNat) 0
            else s.blk.S.read a))

/-- R133: DIGEST: its encoding; outside MODE = HASH it fails; the first of an instance makes one permutation of the padded
state, whose first `OUTLEN` bytes are the digest, are cached and are returned, and locks the instance; a later one returns
the cached digest and writes no state element. -/
def Obligations.DigestFinalizesAndCaches : Prop :=
  encode .digest = [0x22, 0x00, 0x00, 0x00] ∧
  ∀ s : State,
    (s.blk.MODE ≠ .hash →
      exec .digest s = .next { s with blk := { s.blk with ERR := 0x03 }, resp := s.resp ++ [0x03] }) ∧
    (Inv s → s.blk.MODE = .hash → s.blk.FINALIZED = false →
      ∃ (t : State) (u : List Byte),
        u = permuteBytes s.par.permute ((List.range 200).map fun a =>
          s.blk.S.read a ^^^ (if a = s.blk.ACUR.toNat then s.par.hashDsbyte else 0x00) ^^^
            (if a + 1 = s.blk.RATE.toNat then 0x80 else 0x00)) ∧
        exec .digest s = .next t ∧
        t = { s with
          blk := { s.blk with
            S := t.blk.S, ACUR := 0, SCUR := s.blk.OUTLEN, PHASE := .squeezing, FINALIZED := true,
            DCACHE := t.blk.DCACHE }
          resp := s.resp ++ 0x00 :: u.take s.blk.OUTLEN.toNat, permuteCalls := s.permuteCalls + 1 } ∧
        t.blk.S.readBytes 0 200 = u ∧
        ∀ j, t.blk.DCACHE.read j = if j < s.blk.OUTLEN.toNat then u.getD j 0 else 0x00) ∧
    (Inv s → s.blk.MODE = .hash → s.blk.FINALIZED = true →
      exec .digest s = .next { s with
        resp := s.resp ++ 0x00 :: (List.range s.blk.OUTLEN.toNat).map fun j => s.blk.DCACHE.read j })

/-- R137: once `FINALIZED = 1`, any number of DIGEST, HEXDIGEST, (failing) UPDATE and STAT write no state element but `ERR`,
and after them DIGEST and HEXDIGEST still return the cached digest. -/
def Obligations.DigestsStayTheSame : Prop :=
  ∀ (s : State) (is : List Instr), Inv s → s.blk.MODE = .hash → s.blk.FINALIZED = true →
    (∀ i ∈ is, i = .digest ∨ i = .hexdigest ∨ i = .stat ∨ ∃ data, i = .update data) →
    ∃ t, execAll is s = .next t ∧ t.blk = { s.blk with ERR := t.blk.ERR } ∧
      ((∀ i ∈ is, i = .digest ∨ i = .hexdigest) → t.blk = s.blk) ∧
      exec .digest t = .next { t with
        resp := t.resp ++ 0x00 :: (List.range s.blk.OUTLEN.toNat).map fun j => s.blk.DCACHE.read j } ∧
      exec .hexdigest t = .next { t with
        resp := t.resp ++ 0x00 :: hex ((List.range s.blk.OUTLEN.toNat).map fun j => s.blk.DCACHE.read j) }

/-- R134: HEXDIGEST: its encoding; it reports the hexadecimal text of what DIGEST reports and leaves the state DIGEST leaves; outside MODE =
HASH both fail. -/
def Obligations.HexdigestIsTheTextOfDigest : Prop :=
  encode .hexdigest = [0x23, 0x00, 0x00, 0x00] ∧
  ∀ s : State,
    (s.blk.MODE ≠ .hash →
      exec .digest s = .next { s with blk := { s.blk with ERR := 0x03 }, resp := s.resp ++ [0x03] } ∧
      exec .hexdigest s = .next { s with blk := { s.blk with ERR := 0x03 }, resp := s.resp ++ [0x03] }) ∧
    (Inv s → s.blk.MODE = .hash →
      ∃ (t : State) (d : List Byte), exec .digest s = .next t ∧ d.length = s.blk.OUTLEN.toNat ∧
        t.resp = s.resp ++ 0x00 :: d ∧
        exec .hexdigest s = .next { t with resp := s.resp ++ 0x00 :: hex d })

/-- R135: two lowercase ASCII digits a byte, the high four bits first. -/
def Obligations.HexTextDigits : Prop :=
  ∀ (d : List Byte) (j : Nat), j < d.length →
    (hex d).length = 2 * d.length ∧
    ((hex d).getD (2 * j) 0).toNat =
      (if (d.getD j 0).toNat / 16 < 10 then 0x30 + (d.getD j 0).toNat / 16
        else 0x61 + (d.getD j 0).toNat / 16 - 10) ∧
    ((hex d).getD (2 * j + 1) 0).toNat =
      (if (d.getD j 0).toNat % 16 < 10 then 0x30 + (d.getD j 0).toNat % 16
        else 0x61 + (d.getD j 0).toNat % 16 - 10)

/-- R136: feeding a message as the initial message, as one UPDATE or as any number of them leaves the same block. -/
def Obligations.UpdatesConcatenate : Prop :=
  ∀ (var : Byte) (first : List Byte) (pieces : List (List Byte)) (s : State), var.toNat ≤ 3 →
    ∃ t u, execAll (.hinit var first :: pieces.map .update) s = .next t ∧
      exec (.hinit var (first ++ pieces.flatten)) s = .next u ∧
      t.blk = u.blk ∧ t.permuteCalls = u.permuteCalls ∧ t.ext = u.ext

/-- R139: the digest of an instance fed the pieces of `M` is the first `OUTLEN` bytes of the sponge function with the
variant's rate and `HASH_DSBYTE`, for every permutation. -/
def Obligations.DigestIsTheSpongeFunction : Prop :=
  ∀ (var : Byte) (row : VariantRow) (first : List Byte) (pieces : List (List Byte)) (s : State),
    dsReserved s.par.hashDsbyte = false → variantTable[var.toNat]? = some row →
    ∃ t, execAll (.hinit var first :: (pieces.map .update ++ [.digest])) s = .next t ∧
      t.resp = s.resp ++ List.replicate (1 + pieces.length) 0x00 ++
        0x00 :: spongeFunction (permuteBytes s.par.permute) row.rate.toNat s.par.hashDsbyte
          (first ++ pieces.flatten) row.outlen.toNat

/-- R32, R130, R140: while a finalized Hash Engine is the instance, no command but a successful construction changes `S`, the
cursors, the phase, the lock or the cached digest. -/
def Obligations.FinalizedHashEngineIsReadOnly : Prop :=
  ∀ (i : Instr) (s t : State), s.blk.MODE = .hash → s.blk.FINALIZED = true →
    ((∀ rate cap ds, i ≠ .sinit rate cap ds) ∧ (∀ var data, i ≠ .hinit var data)) ∨ errorOf i s.blk ≠ none →
    exec i s = .next t →
    t.blk = { s.blk with PSEL := t.blk.PSEL, ERR := t.blk.ERR } ∧ t.permuteCalls = s.permuteCalls

/-! ### The Random Bit Extractor -/

/-- R151: RBIND: its two words; it binds and does nothing else, in every mode. -/
def Obligations.RbindSelectsTheProvider : Prop :=
  encode (.rbind .int) = [0x30, 0x00, 0x00, 0x00] ∧ encode (.rbind .ext) = [0x30, 0x00, 0x00, 0x01] ∧
  ∀ (p : ProviderSel) (s : State),
    exec (.rbind p) s = .next { s with
      blk := { s.blk with PSEL := p }, resp := s.resp ++ [0x00] }

/-- R154, R157, R158: GETRANDBITS: its encoding; failing and successful: it takes `n = ceil(k / 8)` bytes of its provider
and responds with the low `k` bits of their big-endian value in as many bytes, which are the provider's bytes with the unused
high bits of the first one cleared. With `PSEL = 0` it leaves the state that a SQUEEZE of `n` leaves, and the bytes are the
ones that SQUEEZE returns; with `PSEL = 1` only the provider moves. -/
def Obligations.GetrandbitsDrawsBits : Prop :=
  ∀ (k : BitVec 24) (s : State),
    encode (.getrandbits k) = 0x31 :: beBytes k.toNat 3 ∧
    (k = 0 ∨ (s.blk.PSEL = .int ∧ s.blk.MODE ≠ .raw) →
      exec (.getrandbits k) s = .next { s with
        blk := { s.blk with ERR := 0x03 }, resp := s.resp ++ [0x03] }) ∧
    (Inv s → k ≠ 0 → (s.blk.PSEL = .ext ∨ s.blk.MODE = .raw) →
      ∃ (t : State) (n : Nat) (b0 c0 : Byte) (bs : List Byte),
        n = (k.toNat + 7) / 8 ∧ (b0 :: bs).length = n ∧
        exec (.getrandbits k) s = .next t ∧ t.resp = s.resp ++ 0x00 :: c0 :: bs ∧
        c0 = (if k.toNat % 8 = 0 then b0 else BitVec.ofNat 8 (b0.toNat % 2 ^ (k.toNat % 8))) ∧
        be (c0 :: bs) = be (b0 :: bs) % 2 ^ k.toNat ∧
        (s.blk.PSEL = .int →
          exec (.squeeze (BitVec.ofNat 24 n)) s = .next { t with resp := s.resp ++ 0x00 :: b0 :: bs }) ∧
        (s.blk.PSEL = .ext → b0 :: bs = (providerSqueeze s.ext n).1 ∧
          t = { s with ext := (providerSqueeze s.ext n).2, resp := t.resp }))

/-- R155, R157: RANDOM: its encoding; failing and successful: 7 provider bytes, their low 53 bits, and the binary64 form of `m / 2^53`. -/
def Obligations.RandomDrawsAFraction : Prop :=
  encode .random = [0x32, 0x00, 0x00, 0x00] ∧
  ∀ s : State,
    (s.blk.PSEL = .int → s.blk.MODE ≠ .raw →
      exec .random s = .next { s with
        blk := { s.blk with ERR := 0x03 }, resp := s.resp ++ [0x03] }) ∧
    (Inv s → (s.blk.PSEL = .ext ∨ s.blk.MODE = .raw) →
      ∃ (t : State) (b : List Byte), b.length = 7 ∧ exec .random s = .next t ∧
        t.resp = s.resp ++ 0x00 :: f64 (be b % 2 ^ 53) ∧
        (s.blk.PSEL = .int → exec (.squeeze 7) s = .next { t with resp := s.resp ++ 0x00 :: b }) ∧
        (s.blk.PSEL = .ext → b = (providerSqueeze s.ext 7).1 ∧
          t = { s with ext := (providerSqueeze s.ext 7).2, resp := t.resp }))

/-- R155, R156: the eight bytes of `f64(m)` are a binary64 number whose exact value is `m / 2^53`: sign 0, and for `m` not 0
a normal number, its biased exponent `x` from 970 to 1022 and its significand `2^52 + f` with
`2^52 + f = m * 2^(1022 - x)`; so it is never 1, negative, infinite or NaN. -/
def Obligations.FloatIsExact : Prop :=
  (f64 0 = List.replicate 8 0x00) ∧
  ∀ m : Nat, 0 < m → m < 2 ^ 53 →
    (f64 m).length = 8 ∧ ∃ x f : Nat, be (f64 m) = x * 2 ^ 52 + f ∧ f < 2 ^ 52 ∧ 970 ≤ x ∧ x ≤ 1022 ∧
      2 ^ 52 + f = m * 2 ^ (1022 - x)

/-- R159: with all-one-bits bytes GETRANDBITS gives `2^k - 1` and RANDOM `1 - 2^-53`; with all-zero-bits bytes both
give 0. -/
def Obligations.ConstantProviders : Prop :=
  ∀ (k : BitVec 24) (s : State), k ≠ 0 → s.blk.PSEL = .ext →
    (s.ext = .ones →
      exec (.getrandbits k) s = .next { s with
        resp := s.resp ++ 0x00 :: beBytes (2 ^ k.toNat - 1) ((k.toNat + 7) / 8) } ∧
      exec .random s = .next { s with
        resp := s.resp ++ [0x00, 0x3F, 0xEF, 0xFF, 0xFF, 0xFF, 0xFF, 0xFF, 0xFF] }) ∧
    (s.ext = .zeros →
      exec (.getrandbits k) s = .next { s with
        resp := s.resp ++ 0x00 :: List.replicate ((k.toNat + 7) / 8) 0x00 } ∧
      exec .random s = .next { s with resp := s.resp ++ 0x00 :: List.replicate 8 0x00 })

/-- R153: a provider answers a request of `n` bytes with exactly `n` bytes, the counter's in counting order. -/
def Obligations.ProvidersAnswerInFull : Prop :=
  (∀ (p : Provider) (n : Nat), (providerSqueeze p n).1.length = n) ∧
  ∀ (c : Byte) (m n : Nat),
    (providerSqueeze (.counter c) (m + n)).1 =
      (providerSqueeze (.counter c) m).1 ++ (providerSqueeze (providerSqueeze (.counter c) m).2 n).1 ∧
    (providerSqueeze (.counter c) (m + n)).2 = (providerSqueeze (providerSqueeze (.counter c) m).2 n).2

/-! ### The system command -/

/-- R170, with the status registers of R37 and the flags of R38: STAT: its encoding; it shows them and changes nothing. -/
def Obligations.StatShowsTheStatusRegisters : Prop :=
  encode .stat = [0x40, 0x00, 0x00, 0x00] ∧
  ∀ s : State, ∃ mode flags : Byte,
    exec .stat s = .next { s with
      resp := s.resp ++ [0x00, mode, flags, s.blk.ERR, s.blk.RATE, s.blk.CAP, s.blk.DSBYTE, s.blk.ACUR,
        s.blk.SCUR, s.blk.OUTLEN] } ∧
    mode.toNat = (match s.blk.MODE with | .none => 0 | .raw => 1 | .hash => 2) ∧
    flags.toNat = (match s.blk.PSEL with | .int => 0 | .ext => 4) + (if s.blk.FINALIZED then 2 else 0) +
      (match s.blk.PHASE with | .absorbing => 0 | .squeezing => 1)
end

