-- ==== Sys2Proof/Laws/Decode.lean ====
section
/-! SUPPORT. The fields of a command word, the row it matches, and the bytes it is sent as: what a round trip of decoding
and encoding rests on. -/

namespace Sys2Proof

/-! ### Fields (R71) -/

/-- A command word is its opcode and its low 24 bits. -/
theorem word_eq_append (w : Word) : w = (fieldOp w ++ fieldN w : BitVec (8 + 24)) := by
  unfold fieldOp fieldN
  rw [BitVec.extractLsb'_append_extractLsb'_eq_extractLsb' (by rfl)]
  simp

@[simp] theorem fieldOp_append (op : Byte) (n : BitVec 24) : fieldOp (op ++ n : BitVec (8 + 24)) = op :=
  BitVec.extractLsb'_append_eq_left

@[simp] theorem fieldN_append (op : Byte) (n : BitVec 24) : fieldN (op ++ n : BitVec (8 + 24)) = n :=
  BitVec.extractLsb'_append_eq_right

/-- A command word is determined by its opcode and its low 24 bits. -/
theorem word_ext_iff {v w : Word} : v = w ↔ fieldOp v = fieldOp w ∧ fieldN v = fieldN w :=
  ⟨fun h => by subst h; exact ⟨rfl, rfl⟩, fun ⟨h1, h2⟩ => by rw [word_eq_append v, word_eq_append w, h1, h2]⟩

@[simp] theorem fieldOp_formatL (op : Byte) (n : BitVec 24) : fieldOp (formatL op n) = op := fieldOp_append op n

@[simp] theorem fieldN_formatL (op : Byte) (n : BitVec 24) : fieldN (formatL op n) = n := fieldN_append op n

@[simp] theorem fieldOp_formatN (op : Byte) : fieldOp (formatN op) = op := fieldOp_append op 0

@[simp] theorem fieldN_formatN (op : Byte) : fieldN (formatN op) = 0 := fieldN_append op 0

theorem formatC_eq (op ds cap rate : Byte) :
    formatC op ds cap rate = (op ++ (ds ++ cap ++ rate : BitVec (8 + 8 + 8)) : BitVec (8 + 24)) := by
  unfold formatC
  ext i hi
  simp only [BitVec.getElem_append]
  split_ifs <;> first | rfl | omega

theorem formatV_eq (op var : Byte) (hlen : BitVec 16) :
    formatV op var hlen = (op ++ (var ++ hlen : BitVec (8 + 16)) : BitVec (8 + 24)) := by
  unfold formatV
  ext i hi
  simp only [BitVec.getElem_append]
  split_ifs <;> first | rfl | omega

@[simp] theorem fieldOp_formatC (op ds cap rate : Byte) : fieldOp (formatC op ds cap rate) = op := by
  rw [formatC_eq, fieldOp_append]

@[simp] theorem fieldOp_formatV (op var : Byte) (hlen : BitVec 16) : fieldOp (formatV op var hlen) = op := by
  rw [formatV_eq, fieldOp_append]

@[simp] theorem fieldOp_formatB (op : Byte) (p : ProviderSel) : fieldOp (formatB op p) = op := by
  cases p <;> exact fieldOp_append op _

theorem fieldN_formatB (op : Byte) (p : ProviderSel) : fieldN (formatB op p) = if p = .ext then 1 else 0 := by
  cases p <;> exact fieldN_append op _

@[simp] theorem fieldHi_formatC (op ds cap rate : Byte) : fieldHi (formatC op ds cap rate) = ds := by
  ext i hi
  simp only [fieldHi, formatC, BitVec.getElem_extractLsb', BitVec.getLsbD_append]
  rw [if_neg (by omega), if_neg (by omega), if_pos (by omega), BitVec.getElem_eq_testBit_toNat, BitVec.testBit_toNat]
  congr 1
  omega

@[simp] theorem fieldCap_formatC (op ds cap rate : Byte) : fieldCap (formatC op ds cap rate) = cap := by
  ext i hi
  simp only [fieldCap, formatC, BitVec.getElem_extractLsb', BitVec.getLsbD_append]
  rw [if_neg (by omega), if_pos (by omega), BitVec.getElem_eq_testBit_toNat, BitVec.testBit_toNat]
  congr 1
  omega

@[simp] theorem fieldRate_formatC (op ds cap rate : Byte) : fieldRate (formatC op ds cap rate) = rate :=
  BitVec.extractLsb'_append_eq_right

@[simp] theorem fieldHi_formatV (op var : Byte) (hlen : BitVec 16) : fieldHi (formatV op var hlen) = var := by
  ext i hi
  simp only [fieldHi, formatV, BitVec.getElem_extractLsb', BitVec.getLsbD_append]
  rw [if_neg (by omega), if_pos (by omega), BitVec.getElem_eq_testBit_toNat, BitVec.testBit_toNat]
  congr 1
  omega

@[simp] theorem fieldHlen_formatV (op var : Byte) (hlen : BitVec 16) : fieldHlen (formatV op var hlen) = hlen :=
  BitVec.extractLsb'_append_eq_right

@[simp] theorem fieldPsel_formatB (op : Byte) (p : ProviderSel) : fieldPsel (formatB op p) = p := by
  cases p
  · have h : (formatB op .int).getLsbD 0 = false := by
      show (op ++ 0#24 : BitVec (8 + 24)).getLsbD 0 = false
      rw [BitVec.getLsbD_append]; rfl
    rw [fieldPsel, h]; rfl
  · have h : (formatB op .ext).getLsbD 0 = true := by
      show (op ++ 1#24 : BitVec (8 + 24)).getLsbD 0 = true
      rw [BitVec.getLsbD_append]; rfl
    rw [fieldPsel, h]; rfl

/-! ### Byte order (R79) -/

/-- R79: the word read from the bytes it is sent as is the word. -/
theorem wordOfBytes_extract (w : Word) :
    wordOfBytes (w.extractLsb' 24 8) (w.extractLsb' 16 8) (w.extractLsb' 8 8) (w.extractLsb' 0 8) = w := by
  unfold wordOfBytes
  rw [BitVec.extractLsb'_append_extractLsb'_eq_extractLsb' (by rfl),
    BitVec.extractLsb'_append_extractLsb'_eq_extractLsb' (by rfl),
    BitVec.extractLsb'_append_extractLsb'_eq_extractLsb' (by rfl)]
  simp

/-- R79: the bytes a word is sent as are the bytes it is read from. -/
theorem wordBytes_wordOfBytes (b3 b2 b1 b0 : Byte) : wordBytes (wordOfBytes b3 b2 b1 b0) = [b3, b2, b1, b0] := by
  have h := formatC_eq b3 b2 b1 b0
  have e : wordOfBytes b3 b2 b1 b0 = formatC b3 b2 b1 b0 := rfl
  rw [e]
  have h3 : (formatC b3 b2 b1 b0).extractLsb' 24 8 = b3 := fieldOp_formatC b3 b2 b1 b0
  have h2 : (formatC b3 b2 b1 b0).extractLsb' 16 8 = b2 := fieldHi_formatC b3 b2 b1 b0
  have h1 : (formatC b3 b2 b1 b0).extractLsb' 8 8 = b1 := fieldCap_formatC b3 b2 b1 b0
  have h0 : (formatC b3 b2 b1 b0).extractLsb' 0 8 = b0 := fieldRate_formatC b3 b2 b1 b0
  simp only [wordBytes, h3, h2, h1, h0]

@[simp] theorem length_wordBytes (w : Word) : (wordBytes w).length = 4 := rfl

/-- R70: the decoder reads the word that stands first in the stream. -/
theorem decode_wordBytes (w : Word) (bytes : List Byte) : decode (wordBytes w ++ bytes) = decodeWord w bytes := by
  show decodeWord _ bytes = _
  rw [wordOfBytes_extract]

/-! ### Rows (R77) -/

theorem mask_opcode (w : Word) (op : Byte) : w &&& 0xFF000000 = (op ++ 0#24 : BitVec (8 + 24)) ↔ fieldOp w = op := by
  conv_lhs => rw [word_eq_append w, show (0xFF000000 : Word) = (0xFF#8 ++ 0#24 : BitVec (8 + 24)) from rfl,
    BitVec.and_append]
  rw [show (0xFF#8) = BitVec.allOnes 8 from rfl, BitVec.and_allOnes, BitVec.and_zero, BitVec.append_left_inj]

theorem mask_whole (w : Word) (op : Byte) :
    w &&& 0xFFFFFFFF = (op ++ 0#24 : BitVec (8 + 24)) ↔ fieldOp w = op ∧ fieldN w = 0 := by
  rw [show (0xFFFFFFFF : Word) = BitVec.allOnes 32 from rfl, BitVec.and_allOnes, word_ext_iff, fieldOp_append,
    fieldN_append]
  rfl

theorem mask_bind (w : Word) (op : Byte) :
    w &&& 0xFFFFFFFE = (op ++ 0#24 : BitVec (8 + 24)) ↔ fieldOp w = op ∧ fieldN w &&& 0xFFFFFE = 0 := by
  conv_lhs => rw [word_eq_append w, show (0xFFFFFFFE : Word) = (0xFF#8 ++ 0xFFFFFE#24 : BitVec (8 + 24)) from rfl,
    BitVec.and_append]
  rw [word_ext_iff, fieldOp_append, fieldN_append, fieldOp_append, fieldN_append,
    show (0xFF#8) = BitVec.allOnes 8 from rfl, BitVec.and_allOnes]
  rfl

/-- R75, R76, R77: the row of a word from its opcode and, for formats N and B, the bits that must be zero. -/
theorem matchRow_eq (w : Word) :
    matchRow w =
      if fieldOp w = 0x10 then some .sinit
      else if fieldOp w = 0x11 then some .absorb
      else if fieldOp w = 0x12 then some .squeeze
      else if fieldOp w = 0x20 then some .hinit
      else if fieldOp w = 0x21 then some .update
      else if fieldOp w = 0x22 ∧ fieldN w = 0 then some .digest
      else if fieldOp w = 0x23 ∧ fieldN w = 0 then some .hexdigest
      else if fieldOp w = 0x30 ∧ fieldN w &&& 0xFFFFFE = 0 then some .rbind
      else if fieldOp w = 0x31 then some .getrandbits
      else if fieldOp w = 0x32 ∧ fieldN w = 0 then some .random
      else if fieldOp w = 0x40 ∧ fieldN w = 0 then some .stat
      else none := by
  have ho : ∀ op : Byte, ∀ p : Word, p = (op ++ 0#24 : BitVec (8 + 24)) →
      ((w &&& 0xFF000000 == p) = true ↔ fieldOp w = op) := by
    rintro op p rfl; rw [beq_iff_eq]; exact mask_opcode w op
  have hw : ∀ op : Byte, ∀ p : Word, p = (op ++ 0#24 : BitVec (8 + 24)) →
      ((w &&& 0xFFFFFFFF == p) = true ↔ fieldOp w = op ∧ fieldN w = 0) := by
    rintro op p rfl; rw [beq_iff_eq]; exact mask_whole w op
  have hb : ∀ op : Byte, ∀ p : Word, p = (op ++ 0#24 : BitVec (8 + 24)) →
      ((w &&& 0xFFFFFFFE == p) = true ↔ fieldOp w = op ∧ fieldN w &&& 0xFFFFFE = 0) := by
    rintro op p rfl; rw [beq_iff_eq]; exact mask_bind w op
  have find : ∀ (r : OpcodeRow) (rs : List OpcodeRow), ((r :: rs).find? fun r => w &&& r.mask == r.pat).map (·.op) =
      if (w &&& r.mask == r.pat) = true then some r.op else (rs.find? fun r => w &&& r.mask == r.pat).map (·.op) := by
    intro r rs
    rw [List.find?_cons]
    cases w &&& r.mask == r.pat <;> rfl
  unfold matchRow opcodeTable
  simp only [find, ho 0x10 0x10000000 rfl, ho 0x11 0x11000000 rfl, ho 0x12 0x12000000 rfl, ho 0x20 0x20000000 rfl,
    ho 0x21 0x21000000 rfl, hw 0x22 0x22000000 rfl, hw 0x23 0x23000000 rfl, hb 0x30 0x30000000 rfl,
    ho 0x31 0x31000000 rfl, hw 0x32 0x32000000 rfl, hw 0x40 0x40000000 rfl, List.find?_nil, Option.map_none]

/-- The row of R77 a command belongs to. -/
def rowOf : Instr → Op
  | .sinit _ _ _   => .sinit
  | .absorb _      => .absorb
  | .squeeze _     => .squeeze
  | .hinit _ _     => .hinit
  | .update _      => .update
  | .digest        => .digest
  | .hexdigest     => .hexdigest
  | .rbind _       => .rbind
  | .getrandbits _ => .getrandbits
  | .random        => .random
  | .stat          => .stat

/-- R77: the word of a command matches the command's row. -/
theorem matchRow_encodeWord (i : Instr) : matchRow (encodeWord i) = some (rowOf i) := by
  rw [matchRow_eq]
  cases i with
  | rbind p => cases p <;> rfl
  | _ => simp [encodeWord, rowOf]

/-- R78: the payload length its word gives a well-formed command is its payload's. -/
theorem paylen_encodeWord {i : Instr} (h : i.wellFormed = true) : paylen (encodeWord i) = i.payload.length := by
  cases i with
  | absorb data =>
    have hl : data.length < 2 ^ 24 := of_decide_eq_true h
    simpa [encodeWord, paylen, Instr.payload] using hl
  | update data =>
    have hl : data.length < 2 ^ 24 := of_decide_eq_true h
    simpa [encodeWord, paylen, Instr.payload] using hl
  | hinit var data =>
    have hl : data.length < 2 ^ 16 := of_decide_eq_true h
    simpa [encodeWord, paylen, Instr.payload] using hl
  | _ => simp [encodeWord, paylen, Instr.payload]

/-- R80: the operands read from a command's word and payload are the command's. -/
theorem assemble_encodeWord (i : Instr) : assemble (rowOf i) (encodeWord i) i.payload = i := by
  cases i <;> simp [assemble, rowOf, encodeWord, Instr.payload]

end Sys2Proof
end

