-- ==== Sys2Proof/Laws/Memory.lean ====
section
/-! SUPPORT. The laws of the byte stores: a read after a write, the canonical form kept by every operation, and equality
of canonical stores from equality of their reads. -/

namespace Sys2Proof.Machine.Memory

/-! ### Reading -/

@[simp] theorem read_nil (a : Nat) : read [] a = unlisted := rfl

/-- Below the first index a canonical store may list, every index is unlisted. -/
theorem read_below {size lo : Nat} {m : Memory} (h : wfFrom size lo m = true) {a : Nat} (ha : a < lo) :
    read m a = unlisted := by
  induction m generalizing lo with
  | nil => rfl
  | cons c m ih =>
    simp only [wfFrom, Bool.and_eq_true, decide_eq_true_eq] at h
    simp only [read]
    rw [if_neg (by omega), ih h.2 (by omega)]

/-- A read after a write: the written byte at its index, the old byte elsewhere. In a canonical store the indices below the
first cell are unlisted, which is why the form is assumed. -/
theorem read_write_of_wfFrom {size lo : Nat} {m : Memory} (h : wfFrom size lo m = true) (a b : Nat) (v : Byte) :
    read (write m a v) b = if b = a then v else read m b := by
  induction m generalizing lo with
  | nil =>
    unfold write
    split <;> rename_i hv <;> simp [read, hv]
  | cons c m ih =>
    obtain ⟨c, w⟩ := c
    simp only [wfFrom, Bool.and_eq_true, decide_eq_true_eq] at h
    have hm : ∀ x, x < c + 1 → read m x = unlisted := fun x hx => read_below h.2 hx
    unfold write
    split
    · rename_i hac
      split <;> rename_i hv
      · by_cases hb : b = a
        · subst hb
          simp [read, hv, show b ≠ c by omega, hm b (by omega)]
        · simp [hb]
      · by_cases hb : b = a <;> simp [read, hb]
    · split
      · rename_i hac
        subst hac
        split <;> rename_i hv
        · by_cases hb : b = a
          · subst hb
            simp [hv, hm b (by omega)]
          · simp [read, hb]
        · by_cases hb : b = a <;> simp [read, hb]
      · rename_i h1 h2
        simp only [read, ih h.2]
        by_cases hb : b = c
        · simp [hb, show c ≠ a by omega]
        · simp [hb]

theorem read_write {m : Memory} {size : Nat} (h : m.wf size = true) (a b : Nat) (v : Byte) :
    read (write m a v) b = if b = a then v else read m b := read_write_of_wfFrom h a b v

/-! ### The canonical form -/

@[simp] theorem wf_nil (size : Nat) : wf [] size = true := rfl

theorem wfFrom_mono {size lo lo' : Nat} {m : Memory} (h : wfFrom size lo m = true) (hl : lo' ≤ lo) :
    wfFrom size lo' m = true := by
  cases m with
  | nil => rfl
  | cons c m =>
    simp only [wfFrom, Bool.and_eq_true, decide_eq_true_eq] at h ⊢
    exact ⟨⟨⟨by omega, h.1.1.2⟩, h.1.2⟩, h.2⟩

theorem wfFrom_write {size lo : Nat} {m : Memory} (h : wfFrom size lo m = true) {a : Nat} (v : Byte)
    (hlo : lo ≤ a) (ha : a < size) : wfFrom size lo (write m a v) = true := by
  induction m generalizing lo with
  | nil =>
    unfold write
    split <;> rename_i hv
    · rfl
    · simp [wfFrom, hlo, ha, hv]
  | cons c m ih =>
    obtain ⟨c, w⟩ := c
    have h' := h
    simp only [wfFrom, Bool.and_eq_true, decide_eq_true_eq] at h
    unfold write
    split
    · rename_i hac
      split <;> rename_i hv
      · exact h'
      · simp only [wfFrom, Bool.and_eq_true, decide_eq_true_eq]
        exact ⟨⟨⟨hlo, ha⟩, hv⟩, ⟨⟨⟨by omega, h.1.1.2⟩, h.1.2⟩, h.2⟩⟩
    · split
      · rename_i hac
        subst hac
        split <;> rename_i hv
        · exact wfFrom_mono h.2 (by omega)
        · simp only [wfFrom, Bool.and_eq_true, decide_eq_true_eq]
          exact ⟨⟨⟨hlo, ha⟩, hv⟩, h.2⟩
      · simp only [wfFrom, Bool.and_eq_true, decide_eq_true_eq]
        exact ⟨h.1, ih h.2 (by omega)⟩

/-- A write inside the store keeps its canonical form. -/
theorem wf_write {size : Nat} {m : Memory} (h : m.wf size = true) {a : Nat} (v : Byte) (ha : a < size) :
    (write m a v).wf size = true := wfFrom_write h v (Nat.zero_le a) ha

theorem wfFrom_ofBytes (size : Nat) (bs : List Byte) (addr : Nat) (h : addr + bs.length ≤ size) :
    wfFrom size addr (ofBytes addr bs) = true := by
  induction bs generalizing addr with
  | nil => rfl
  | cons b bs ih =>
    simp only [List.length_cons] at h
    have := ih (addr + 1) (by omega)
    unfold ofBytes
    split <;> rename_i hb
    · exact wfFrom_mono this (by omega)
    · simp only [wfFrom, Bool.and_eq_true, decide_eq_true_eq]
      exact ⟨⟨⟨le_refl _, by omega⟩, hb⟩, this⟩

/-- A store made of at most `size` bytes is canonical. -/
theorem wf_ofBytes {size : Nat} {bs : List Byte} (h : bs.length ≤ size) : (ofBytes 0 bs).wf size = true :=
  wfFrom_ofBytes size bs 0 (by omega)

theorem wf_writeBytes {size : Nat} {m : Memory} (h : m.wf size = true) (addr : Nat) (bs : List Byte)
    (hb : addr + bs.length ≤ size) : (writeBytes m addr bs).wf size = true := by
  induction bs generalizing m addr with
  | nil => exact h
  | cons b bs ih =>
    simp only [List.length_cons] at hb
    exact ih (wf_write h b (by omega)) (addr + 1) (by omega)

/-! ### Blocks of bytes -/

theorem read_ofBytes (bs : List Byte) (addr a : Nat) :
    read (ofBytes addr bs) a = if addr ≤ a then bs.getD (a - addr) unlisted else unlisted := by
  induction bs generalizing addr with
  | nil => simp [ofBytes]
  | cons b bs ih =>
    have key : read (ofBytes addr (b :: bs)) a = if a = addr then b else read (ofBytes (addr + 1) bs) a := by
      rw [ofBytes]
      split <;> rename_i hb
      · by_cases ha : a = addr
        · subst ha
          rw [ih, if_neg (by omega), if_pos rfl, hb]
        · simp [ha]
      · simp [read]
    rw [key, ih]
    by_cases ha : a = addr
    · subst ha
      simp
    · rw [if_neg ha]
      by_cases hl : addr ≤ a
      · obtain ⟨k, rfl⟩ : ∃ k, a = addr + 1 + k := ⟨a - addr - 1, by omega⟩
        rw [if_pos (by omega), if_pos (by omega), show addr + 1 + k - addr = k + 1 by omega,
          show addr + 1 + k - (addr + 1) = k by omega, List.getD_cons_succ]
      · rw [if_neg (by omega), if_neg hl]

@[simp] theorem length_readBytes (m : Memory) (addr n : Nat) : (readBytes m addr n).length = n := by
  simp [readBytes]

theorem getD_readBytes (m : Memory) (addr n j : Nat) (hj : j < n) (d : Byte) :
    (readBytes m addr n).getD j d = read m (addr + j) := by
  simp [readBytes, List.getD, hj]

theorem readBytes_add (m : Memory) (addr n k : Nat) :
    readBytes m addr (n + k) = readBytes m addr n ++ readBytes m (addr + n) k := by
  simp [readBytes, List.range_add, Nat.add_assoc, Function.comp_def]

/-- Reading back the bytes a store was made of. -/
theorem readBytes_ofBytes (bs : List Byte) : readBytes (ofBytes 0 bs) 0 bs.length = bs := by
  apply List.ext_getElem
  · simp
  · intro j h1 h2
    have := getD_readBytes (ofBytes 0 bs) 0 bs.length j h2 unlisted
    rw [List.getD_eq_getElem _ _ h1] at this
    rw [this, read_ofBytes]
    simp [h2]

theorem read_writeBytes {size : Nat} {m : Memory} (h : m.wf size = true) (addr : Nat) (bs : List Byte)
    (hb : addr + bs.length ≤ size) (a : Nat) :
    read (writeBytes m addr bs) a =
      if addr ≤ a ∧ a < addr + bs.length then bs.getD (a - addr) unlisted else read m a := by
  induction bs generalizing m addr with
  | nil => simp [writeBytes]
  | cons b bs ih =>
    simp only [List.length_cons] at hb ⊢
    simp only [writeBytes]
    rw [ih (wf_write h b (by omega)) (addr + 1) (by omega), read_write h]
    by_cases ha : a = addr
    · subst ha
      simp
    · by_cases hl : addr + 1 ≤ a ∧ a < addr + 1 + bs.length
      · obtain ⟨k, rfl⟩ : ∃ k, a = addr + 1 + k := ⟨a - addr - 1, by omega⟩
        rw [if_pos hl, if_pos (by omega), show addr + 1 + k - addr = k + 1 by omega,
          show addr + 1 + k - (addr + 1) = k by omega, List.getD_cons_succ]
      · rw [if_neg hl, if_neg ha, if_neg (by omega)]

/-! ### Equality -/

/-- No canonical store lists an index at or beyond its size. -/
theorem read_beyond {size : Nat} {m : Memory} (h : m.wf size = true) {a : Nat} (ha : size ≤ a) :
    read m a = unlisted := by
  have : ∀ (m : Memory) (lo : Nat), wfFrom size lo m = true → read m a = unlisted := by
    intro m
    induction m with
    | nil => intros; rfl
    | cons c m ih =>
      intro lo hm
      simp only [wfFrom, Bool.and_eq_true, decide_eq_true_eq] at hm
      simp only [read]
      rw [if_neg (by omega), ih _ hm.2]
  exact this m 0 h

theorem eq_of_read_eq_from {size lo : Nat} {m m' : Memory} (h : wfFrom size lo m = true)
    (h' : wfFrom size lo m' = true) (he : ∀ a, read m a = read m' a) : m = m' := by
  induction m generalizing lo m' with
  | nil =>
    cases m' with
    | nil => rfl
    | cons c m' =>
      simp only [wfFrom, Bool.and_eq_true, decide_eq_true_eq] at h'
      have := he c.1
      simp [read] at this
      exact absurd this.symm h'.1.2
  | cons c m ih =>
    cases m' with
    | nil =>
      simp only [wfFrom, Bool.and_eq_true, decide_eq_true_eq] at h
      have := he c.1
      simp [read] at this
      exact absurd this h.1.2
    | cons d m' =>
      obtain ⟨c, v⟩ := c
      obtain ⟨d, w⟩ := d
      simp only [wfFrom, Bool.and_eq_true, decide_eq_true_eq] at h h'
      have hcd : c = d := by
        by_contra hne
        rcases Nat.lt_or_gt_of_ne hne with hlt | hlt
        · have := he c
          simp only [read, if_pos, if_neg hne] at this
          rw [read_below h'.2 (by omega)] at this
          exact h.1.2 this
        · have := he d
          simp only [read, if_pos, if_neg (Ne.symm hne)] at this
          rw [read_below h.2 (by omega)] at this
          exact h'.1.2 this.symm
      subst hcd
      have hvw : v = w := by simpa [read] using he c
      subst hvw
      congr 1
      refine ih h.2 h'.2 fun a => ?_
      by_cases ha : a = c
      · rw [ha, read_below h.2 (by omega), read_below h'.2 (by omega)]
      · simpa [read, ha] using he a

/-- Canonical stores that read alike are equal data. -/
theorem eq_of_read_eq {size : Nat} {m m' : Memory} (h : m.wf size = true) (h' : m'.wf size = true)
    (he : ∀ a, read m a = read m' a) : m = m' := eq_of_read_eq_from h h' he

end Sys2Proof.Machine.Memory
end

