-- ==== Sys2Proof/Laws/Operands.lean ====
section
/-! SUPPORT. The numbers of R11 and the texts of R135 and R156: lengths, values, and that `be` and `be_bytes` invert
each other. -/

namespace Sys2Proof.Machine

theorem be_foldl (bs : List Byte) (acc : Nat) :
    bs.foldl (fun acc b => acc * 256 + b.toNat) acc = acc * 256 ^ bs.length + be bs := by
  induction bs generalizing acc with
  | nil => simp [be]
  | cons b bs ih =>
    simp only [be, List.foldl_cons, List.length_cons]
    rw [ih, ih (0 * 256 + b.toNat)]
    ring

@[simp] theorem be_nil : be [] = 0 := rfl

theorem be_cons (b : Byte) (bs : List Byte) : be (b :: bs) = b.toNat * 256 ^ bs.length + be bs := by
  rw [be, List.foldl_cons, be_foldl]
  simp

theorem be_lt (bs : List Byte) : be bs < 256 ^ bs.length := by
  induction bs with
  | nil => simp
  | cons b bs ih =>
    rw [be_cons, List.length_cons, pow_succ]
    have : b.toNat < 256 := b.isLt
    nlinarith [pow_pos (show 0 < 256 by norm_num) bs.length]

@[simp] theorem length_beBytes (v n : Nat) : (beBytes v n).length = n := by
  induction n with
  | zero => rfl
  | succ n ih => simp [beBytes, ih]

/-- `be_bytes` spells the value it is given, where it fits. -/
theorem be_beBytes (v n : Nat) : be (beBytes v n) = v % 256 ^ n := by
  induction n with
  | zero => simp [beBytes, Nat.mod_one]
  | succ n ih =>
    rw [beBytes, be_cons, length_beBytes, ih, BitVec.toNat_ofNat]
    rw [show (2 : Nat) ^ 8 = 256 by norm_num]
    rw [pow_succ, Nat.mod_mul, mul_comm, add_comm]

theorem beBytes_congr {v w n : Nat} (h : v % 256 ^ n = w % 256 ^ n) : beBytes v n = beBytes w n := by
  induction n generalizing v w with
  | zero => rfl
  | succ n ih =>
    have hn : v % 256 ^ n = w % 256 ^ n := by
      have := congrArg (· % 256 ^ n) h
      simpa [pow_succ, Nat.mod_mul_right_mod] using this
    rw [beBytes, beBytes, ih hn]
    congr 1
    apply BitVec.eq_of_toNat_eq
    simp only [BitVec.toNat_ofNat]
    have h1 : v % (256 ^ n * 256) / 256 ^ n = w % (256 ^ n * 256) / 256 ^ n := by
      rw [← pow_succ, h]
    rwa [Nat.mod_mul_right_div_self, Nat.mod_mul_right_div_self] at h1

/-- The bytes of a big-endian value are the bytes it was read from. -/
theorem beBytes_be (bs : List Byte) : beBytes (be bs) bs.length = bs := by
  induction bs with
  | nil => rfl
  | cons b bs ih =>
    have hlt := be_lt bs
    have hb : b.toNat < 256 := b.isLt
    have hp : 0 < 256 ^ bs.length := pow_pos (by norm_num) _
    rw [List.length_cons, beBytes, be_cons]
    congr 1
    · apply BitVec.eq_of_toNat_eq
      rw [BitVec.toNat_ofNat, Nat.add_comm, Nat.add_mul_div_right _ _ hp, Nat.div_eq_of_lt hlt]
      simpa using hb
    · conv_rhs => rw [← ih]
      apply beBytes_congr
      rw [Nat.add_comm, Nat.add_mul_mod_self_right]

/-- R154: the low `k` bits are the remainder by `2^k`. -/
theorem lowBits_eq (v k : Nat) : lowBits v k = v % 2 ^ k := by
  rw [lowBits, Nat.one_shiftLeft, Nat.and_two_pow_sub_one_eq_mod]

@[simp] theorem length_hex (d : List Byte) : (hex d).length = 2 * d.length := by
  induction d with
  | nil => rfl
  | cons b d ih => simp [hex, ih]; omega

@[simp] theorem length_f64 (m : Nat) : (f64 m).length = 8 := length_beBytes _ _

/-- R156: the exponent and fraction fields do not overlap. -/
theorem f64Bits_eq {m : Nat} (h0 : m ≠ 0) (hm : m < 2 ^ 53) :
    f64Bits m = (m.log2 + 970) * 2 ^ 52 + (m - 2 ^ m.log2) * 2 ^ (52 - m.log2) := by
  have he : m.log2 < 53 := (Nat.log2_lt h0).2 hm
  have hlo : m < 2 ^ (m.log2 + 1) := Nat.lt_log2_self
  have hfrac : (m - 2 ^ m.log2) * 2 ^ (52 - m.log2) < 2 ^ 52 := by
    have h1 : m - 2 ^ m.log2 < 2 ^ m.log2 := by rw [pow_succ] at hlo; omega
    calc (m - 2 ^ m.log2) * 2 ^ (52 - m.log2)
        < 2 ^ m.log2 * 2 ^ (52 - m.log2) := Nat.mul_lt_mul_of_pos_right h1 (by positivity)
      _ = 2 ^ 52 := by rw [← pow_add]; congr 1; omega
  rw [f64Bits, if_neg h0]
  simp only
  rw [← Nat.shiftLeft_add_eq_or_of_lt (by rwa [Nat.shiftLeft_eq]), Nat.shiftLeft_eq, Nat.shiftLeft_eq]

end Sys2Proof.Machine
end

