-- ==== Sys2Proof/Laws/Permute.lean ====
section
/-! SUPPORT. The parameters keep their contracts: `permute` maps 200 bytes to 200 bytes (R8), and a provider answers a
request of `n` bytes with exactly `n` bytes (R153). -/

namespace Sys2Proof.Machine

/-- R8: 200 bytes to 200 bytes. -/
theorem length_permuteBytes (p : PermuteSel) {bs : List Byte} (h : bs.length = Config.stateBytes) :
    (permuteBytes p bs).length = Config.stateBytes := by
  cases p with
  | keccakF => simp [permuteBytes, keccakF]
  | identity => exact h
  | shiftAdd => simp [permuteBytes, shiftAdd]
  | supplied id => simp [permuteBytes, Config.stateBytes]

/-- R153: exactly `n` bytes. -/
@[simp] theorem length_providerSqueeze (p : Provider) (n : Nat) : (providerSqueeze p n).1.length = n := by
  cases p <;> simp [providerSqueeze]

end Sys2Proof.Machine
end

