-- ==== Sys2Proof/Laws/State.lean ====
section
/-! SUPPORT. What each named update of the state leaves in each field, one lemma a field. -/

namespace Sys2Proof.Machine

/-! ### `xorS` -/

@[simp] theorem xorS_blk (i : Nat) (x : Byte) (s : State) :
    (xorS i x s).blk = { s.blk with S := s.blk.S.write i (s.blk.S.read i ^^^ x) } := rfl
@[simp] theorem xorS_par (i : Nat) (x : Byte) (s : State) : (xorS i x s).par = s.par := rfl
@[simp] theorem xorS_ext (i : Nat) (x : Byte) (s : State) : (xorS i x s).ext = s.ext := rfl
@[simp] theorem xorS_cmd (i : Nat) (x : Byte) (s : State) : (xorS i x s).cmd = s.cmd := rfl
@[simp] theorem xorS_cpos (i : Nat) (x : Byte) (s : State) : (xorS i x s).cpos = s.cpos := rfl
@[simp] theorem xorS_resp (i : Nat) (x : Byte) (s : State) : (xorS i x s).resp = s.resp := rfl
@[simp] theorem xorS_permuteCalls (i : Nat) (x : Byte) (s : State) : (xorS i x s).permuteCalls = s.permuteCalls := rfl
@[simp] theorem xorS_resetPending (i : Nat) (x : Byte) (s : State) : (xorS i x s).resetPending = s.resetPending := rfl

/-! ### `setAcur` -/

@[simp] theorem setAcur_blk (v : Byte) (s : State) :
    (setAcur v s).blk = { s.blk with ACUR := v } := rfl
@[simp] theorem setAcur_par (v : Byte) (s : State) : (setAcur v s).par = s.par := rfl
@[simp] theorem setAcur_ext (v : Byte) (s : State) : (setAcur v s).ext = s.ext := rfl
@[simp] theorem setAcur_cmd (v : Byte) (s : State) : (setAcur v s).cmd = s.cmd := rfl
@[simp] theorem setAcur_cpos (v : Byte) (s : State) : (setAcur v s).cpos = s.cpos := rfl
@[simp] theorem setAcur_resp (v : Byte) (s : State) : (setAcur v s).resp = s.resp := rfl
@[simp] theorem setAcur_permuteCalls (v : Byte) (s : State) : (setAcur v s).permuteCalls = s.permuteCalls := rfl
@[simp] theorem setAcur_resetPending (v : Byte) (s : State) : (setAcur v s).resetPending = s.resetPending := rfl

/-! ### `setScur` -/

@[simp] theorem setScur_blk (v : Byte) (s : State) :
    (setScur v s).blk = { s.blk with SCUR := v } := rfl
@[simp] theorem setScur_par (v : Byte) (s : State) : (setScur v s).par = s.par := rfl
@[simp] theorem setScur_ext (v : Byte) (s : State) : (setScur v s).ext = s.ext := rfl
@[simp] theorem setScur_cmd (v : Byte) (s : State) : (setScur v s).cmd = s.cmd := rfl
@[simp] theorem setScur_cpos (v : Byte) (s : State) : (setScur v s).cpos = s.cpos := rfl
@[simp] theorem setScur_resp (v : Byte) (s : State) : (setScur v s).resp = s.resp := rfl
@[simp] theorem setScur_permuteCalls (v : Byte) (s : State) : (setScur v s).permuteCalls = s.permuteCalls := rfl
@[simp] theorem setScur_resetPending (v : Byte) (s : State) : (setScur v s).resetPending = s.resetPending := rfl

/-! ### `permuteS` -/

@[simp] theorem permuteS_blk (s : State) :
    (permuteS s).blk = { s.blk with S := Memory.ofBytes 0 (permuteBytes s.par.permute (s.blk.S.readBytes 0 Config.stateBytes)) } := rfl
@[simp] theorem permuteS_par (s : State) : (permuteS s).par = s.par := rfl
@[simp] theorem permuteS_ext (s : State) : (permuteS s).ext = s.ext := rfl
@[simp] theorem permuteS_cmd (s : State) : (permuteS s).cmd = s.cmd := rfl
@[simp] theorem permuteS_cpos (s : State) : (permuteS s).cpos = s.cpos := rfl
@[simp] theorem permuteS_resp (s : State) : (permuteS s).resp = s.resp := rfl
@[simp] theorem permuteS_permuteCalls (s : State) : (permuteS s).permuteCalls = s.permuteCalls + 1 := rfl
@[simp] theorem permuteS_resetPending (s : State) : (permuteS s).resetPending = s.resetPending := rfl

/-! ### `construct` -/

@[simp] theorem construct_blk (mode : Mode) (rate cap ds outlen : Byte) (s : State) :
    (construct mode rate cap ds outlen s).blk = { s.blk with S := [], RATE := rate, CAP := cap, DSBYTE := ds, ACUR := 0, SCUR := 0, PHASE := .absorbing, MODE := mode, OUTLEN := outlen, FINALIZED := false, DCACHE := [] } := rfl
@[simp] theorem construct_par (mode : Mode) (rate cap ds outlen : Byte) (s : State) : (construct mode rate cap ds outlen s).par = s.par := rfl
@[simp] theorem construct_ext (mode : Mode) (rate cap ds outlen : Byte) (s : State) : (construct mode rate cap ds outlen s).ext = s.ext := rfl
@[simp] theorem construct_cmd (mode : Mode) (rate cap ds outlen : Byte) (s : State) : (construct mode rate cap ds outlen s).cmd = s.cmd := rfl
@[simp] theorem construct_cpos (mode : Mode) (rate cap ds outlen : Byte) (s : State) : (construct mode rate cap ds outlen s).cpos = s.cpos := rfl
@[simp] theorem construct_resp (mode : Mode) (rate cap ds outlen : Byte) (s : State) : (construct mode rate cap ds outlen s).resp = s.resp := rfl
@[simp] theorem construct_permuteCalls (mode : Mode) (rate cap ds outlen : Byte) (s : State) : (construct mode rate cap ds outlen s).permuteCalls = s.permuteCalls := rfl
@[simp] theorem construct_resetPending (mode : Mode) (rate cap ds outlen : Byte) (s : State) : (construct mode rate cap ds outlen s).resetPending = s.resetPending := rfl

/-! ### `respond` -/

@[simp] theorem respond_blk (out : List Byte) (s : State) :
    (respond out s).blk = s.blk := rfl
@[simp] theorem respond_par (out : List Byte) (s : State) : (respond out s).par = s.par := rfl
@[simp] theorem respond_ext (out : List Byte) (s : State) : (respond out s).ext = s.ext := rfl
@[simp] theorem respond_cmd (out : List Byte) (s : State) : (respond out s).cmd = s.cmd := rfl
@[simp] theorem respond_cpos (out : List Byte) (s : State) : (respond out s).cpos = s.cpos := rfl
@[simp] theorem respond_resp (out : List Byte) (s : State) : (respond out s).resp = s.resp ++ statusOk :: out := rfl
@[simp] theorem respond_permuteCalls (out : List Byte) (s : State) : (respond out s).permuteCalls = s.permuteCalls := rfl
@[simp] theorem respond_resetPending (out : List Byte) (s : State) : (respond out s).resetPending = s.resetPending := rfl

/-! ### `raise` -/

@[simp] theorem raise_blk (e : Error) (s : State) :
    (raise e s).blk = { s.blk with ERR := e.code } := rfl
@[simp] theorem raise_par (e : Error) (s : State) : (raise e s).par = s.par := rfl
@[simp] theorem raise_ext (e : Error) (s : State) : (raise e s).ext = s.ext := rfl
@[simp] theorem raise_cmd (e : Error) (s : State) : (raise e s).cmd = s.cmd := rfl
@[simp] theorem raise_cpos (e : Error) (s : State) : (raise e s).cpos = s.cpos := rfl
@[simp] theorem raise_resp (e : Error) (s : State) : (raise e s).resp = s.resp ++ [e.code] := rfl
@[simp] theorem raise_permuteCalls (e : Error) (s : State) : (raise e s).permuteCalls = s.permuteCalls := rfl
@[simp] theorem raise_resetPending (e : Error) (s : State) : (raise e s).resetPending = s.resetPending := rfl

/-! ### `resetEvent` -/

@[simp] theorem resetEvent_blk (s : State) :
    (resetEvent s).blk = Block.reset := rfl
@[simp] theorem resetEvent_par (s : State) : (resetEvent s).par = s.par := rfl
@[simp] theorem resetEvent_ext (s : State) : (resetEvent s).ext = s.ext := rfl
@[simp] theorem resetEvent_cmd (s : State) : (resetEvent s).cmd = s.cmd := rfl
@[simp] theorem resetEvent_cpos (s : State) : (resetEvent s).cpos = s.cpos := rfl
@[simp] theorem resetEvent_resp (s : State) : (resetEvent s).resp = s.resp := rfl
@[simp] theorem resetEvent_permuteCalls (s : State) : (resetEvent s).permuteCalls = 0 := rfl
@[simp] theorem resetEvent_resetPending (s : State) : (resetEvent s).resetPending = false := rfl

/-! ### `takeCommand` -/

@[simp] theorem takeCommand_blk (len : Nat) (rest : List Byte) (s : State) :
    (takeCommand len rest s).blk = s.blk := rfl
@[simp] theorem takeCommand_par (len : Nat) (rest : List Byte) (s : State) : (takeCommand len rest s).par = s.par := rfl
@[simp] theorem takeCommand_ext (len : Nat) (rest : List Byte) (s : State) : (takeCommand len rest s).ext = s.ext := rfl
@[simp] theorem takeCommand_cmd (len : Nat) (rest : List Byte) (s : State) : (takeCommand len rest s).cmd = rest := rfl
@[simp] theorem takeCommand_cpos (len : Nat) (rest : List Byte) (s : State) : (takeCommand len rest s).cpos = s.cpos + len := rfl
@[simp] theorem takeCommand_resp (len : Nat) (rest : List Byte) (s : State) : (takeCommand len rest s).resp = s.resp := rfl
@[simp] theorem takeCommand_permuteCalls (len : Nat) (rest : List Byte) (s : State) : (takeCommand len rest s).permuteCalls = s.permuteCalls := rfl
@[simp] theorem takeCommand_resetPending (len : Nat) (rest : List Byte) (s : State) : (takeCommand len rest s).resetPending = s.resetPending := rfl

end Sys2Proof.Machine
end

