-- ==== Sys2Proof/Laws/Sponge.lean ====
section
/-! SUPPORT. Everything the Sponge's steps can do: what `AB`, `FINPAD` and `SQ` leave unchanged, where the cursors and the
count of permutations stand after them, that they keep their own preconditions and the canonical form of `S`, and the
concatenation and stream laws (R108, R109). -/

namespace Sys2Proof.Machine

/-! ### Preconditions -/

theorem spongeReady_iff (b : Block) :
    spongeReady b = true ↔ b.RATE.toNat ≤ 199 ∧ b.ACUR.toNat < b.RATE.toNat ∧ b.SCUR.toNat < b.RATE.toNat := by
  simp [spongeReady, and_assoc]

/-- A cursor below `RATE` can be advanced: it meets `RATE` exactly when its number does, and wraps nowhere (R173). -/
theorem cursor_succ {rate c : Byte} (hr : rate.toNat ≤ 199) (hc : c.toNat < rate.toNat) :
    (c + 1).toNat = c.toNat + 1 ∧ (c + 1 = rate ↔ c.toNat + 1 = rate.toNat) := by
  have h : (c + 1).toNat = c.toNat + 1 := by
    rw [BitVec.toNat_add]
    simp
    omega
  refine ⟨h, ?_⟩
  rw [← h]
  exact BitVec.toNat_inj.symm

theorem step_mod_div {c r : Nat} (hc : c < r) :
    (c + 1) % r = (if c + 1 = r then 0 else c + 1) ∧ (c + 1) / r = if c + 1 = r then 1 else 0 := by
  split <;> rename_i h
  · rw [h, Nat.mod_self, Nat.div_self (by omega)]
    exact ⟨rfl, rfl⟩
  · exact ⟨Nat.mod_eq_of_lt (by omega), Nat.div_eq_of_lt (by omega)⟩

/-- Cursor and block count after one more byte, from those after `n` bytes. -/
theorem add_mod_div_succ (c n r : Nat) :
    ((c + 1) % r + n) % r = (c + (n + 1)) % r ∧ (c + 1) / r + ((c + 1) % r + n) / r = (c + (n + 1)) / r := by
  rcases Nat.eq_zero_or_pos r with rfl | hr
  · simp; omega
  · have h := Nat.div_add_mod (c + 1) r
    have e : c + (n + 1) = ((c + 1) % r + n) + r * ((c + 1) / r) := by omega
    constructor
    · rw [e, Nat.add_mul_mod_self_left]
    · rw [e, Nat.add_mul_div_left _ _ hr, Nat.add_comm]

/-! ### The absorb step -/

@[simp] theorem absorb_nil (s : State) : absorb [] s = s := rfl

@[simp] theorem absorb_cons (x : Byte) (data : List Byte) (s : State) :
    absorb (x :: data) s = absorb data (absorbByte s x) := rfl

/-- R108: `AB(a); AB(b)` = `AB(a || b)`. -/
theorem absorb_append (a b : List Byte) (s : State) : absorb (a ++ b) s = absorb b (absorb a s) := by
  simp [absorb, List.foldl_append]

/-- R102: the absorb step writes only `S` and `ACUR`. -/
theorem absorbByte_blk (s : State) (x : Byte) :
    (absorbByte s x).blk = { s.blk with S := (absorbByte s x).blk.S, ACUR := (absorbByte s x).blk.ACUR } := by
  unfold absorbByte
  simp only
  split <;> simp

theorem absorbByte_env (s : State) (x : Byte) :
    (absorbByte s x).par = s.par ∧ (absorbByte s x).ext = s.ext ∧ (absorbByte s x).cmd = s.cmd ∧
    (absorbByte s x).cpos = s.cpos ∧ (absorbByte s x).resp = s.resp ∧
    (absorbByte s x).resetPending = s.resetPending := by
  unfold absorbByte
  simp only
  split <;> simp

@[simp] theorem absorbByte_RATE (s : State) (x : Byte) : (absorbByte s x).blk.RATE = s.blk.RATE := by
  rw [absorbByte_blk]
@[simp] theorem absorbByte_CAP (s : State) (x : Byte) : (absorbByte s x).blk.CAP = s.blk.CAP := by
  rw [absorbByte_blk]
@[simp] theorem absorbByte_DSBYTE (s : State) (x : Byte) : (absorbByte s x).blk.DSBYTE = s.blk.DSBYTE := by
  rw [absorbByte_blk]
@[simp] theorem absorbByte_SCUR (s : State) (x : Byte) : (absorbByte s x).blk.SCUR = s.blk.SCUR := by
  rw [absorbByte_blk]
@[simp] theorem absorbByte_PHASE (s : State) (x : Byte) : (absorbByte s x).blk.PHASE = s.blk.PHASE := by
  rw [absorbByte_blk]
@[simp] theorem absorbByte_MODE (s : State) (x : Byte) : (absorbByte s x).blk.MODE = s.blk.MODE := by
  rw [absorbByte_blk]
@[simp] theorem absorbByte_OUTLEN (s : State) (x : Byte) : (absorbByte s x).blk.OUTLEN = s.blk.OUTLEN := by
  rw [absorbByte_blk]
@[simp] theorem absorbByte_FINALIZED (s : State) (x : Byte) : (absorbByte s x).blk.FINALIZED = s.blk.FINALIZED := by
  rw [absorbByte_blk]
@[simp] theorem absorbByte_DCACHE (s : State) (x : Byte) : (absorbByte s x).blk.DCACHE = s.blk.DCACHE := by
  rw [absorbByte_blk]
@[simp] theorem absorbByte_PSEL (s : State) (x : Byte) : (absorbByte s x).blk.PSEL = s.blk.PSEL := by
  rw [absorbByte_blk]
@[simp] theorem absorbByte_ERR (s : State) (x : Byte) : (absorbByte s x).blk.ERR = s.blk.ERR := by
  rw [absorbByte_blk]

/-- R102: `AB` writes only `S` and `ACUR`. -/
theorem absorb_blk (data : List Byte) (s : State) :
    (absorb data s).blk = { s.blk with S := (absorb data s).blk.S, ACUR := (absorb data s).blk.ACUR } := by
  induction data generalizing s with
  | nil => rfl
  | cons x data ih =>
    rw [absorb_cons, ih (absorbByte s x)]
    simp

@[simp] theorem absorb_par (data : List Byte) (s : State) : (absorb data s).par = s.par := by
  induction data generalizing s with
  | nil => rfl
  | cons x data ih => rw [absorb_cons, ih, (absorbByte_env s x).1]

@[simp] theorem absorb_ext (data : List Byte) (s : State) : (absorb data s).ext = s.ext := by
  induction data generalizing s with
  | nil => rfl
  | cons x data ih => rw [absorb_cons, ih, (absorbByte_env s x).2.1]

@[simp] theorem absorb_cmd (data : List Byte) (s : State) : (absorb data s).cmd = s.cmd := by
  induction data generalizing s with
  | nil => rfl
  | cons x data ih => rw [absorb_cons, ih, (absorbByte_env s x).2.2.1]

@[simp] theorem absorb_cpos (data : List Byte) (s : State) : (absorb data s).cpos = s.cpos := by
  induction data generalizing s with
  | nil => rfl
  | cons x data ih => rw [absorb_cons, ih, (absorbByte_env s x).2.2.2.1]

@[simp] theorem absorb_resp (data : List Byte) (s : State) : (absorb data s).resp = s.resp := by
  induction data generalizing s with
  | nil => rfl
  | cons x data ih => rw [absorb_cons, ih, (absorbByte_env s x).2.2.2.2.1]

@[simp] theorem absorb_resetPending (data : List Byte) (s : State) : (absorb data s).resetPending = s.resetPending := by
  induction data generalizing s with
  | nil => rfl
  | cons x data ih => rw [absorb_cons, ih, (absorbByte_env s x).2.2.2.2.2]

@[simp] theorem absorb_RATE (data : List Byte) (s : State) : (absorb data s).blk.RATE = s.blk.RATE := by
  rw [absorb_blk]
@[simp] theorem absorb_CAP (data : List Byte) (s : State) : (absorb data s).blk.CAP = s.blk.CAP := by
  rw [absorb_blk]
@[simp] theorem absorb_DSBYTE (data : List Byte) (s : State) : (absorb data s).blk.DSBYTE = s.blk.DSBYTE := by
  rw [absorb_blk]
@[simp] theorem absorb_SCUR (data : List Byte) (s : State) : (absorb data s).blk.SCUR = s.blk.SCUR := by
  rw [absorb_blk]
@[simp] theorem absorb_PHASE (data : List Byte) (s : State) : (absorb data s).blk.PHASE = s.blk.PHASE := by
  rw [absorb_blk]
@[simp] theorem absorb_MODE (data : List Byte) (s : State) : (absorb data s).blk.MODE = s.blk.MODE := by
  rw [absorb_blk]
@[simp] theorem absorb_OUTLEN (data : List Byte) (s : State) : (absorb data s).blk.OUTLEN = s.blk.OUTLEN := by
  rw [absorb_blk]
@[simp] theorem absorb_FINALIZED (data : List Byte) (s : State) : (absorb data s).blk.FINALIZED = s.blk.FINALIZED := by
  rw [absorb_blk]
@[simp] theorem absorb_DCACHE (data : List Byte) (s : State) : (absorb data s).blk.DCACHE = s.blk.DCACHE := by
  rw [absorb_blk]
@[simp] theorem absorb_PSEL (data : List Byte) (s : State) : (absorb data s).blk.PSEL = s.blk.PSEL := by
  rw [absorb_blk]
@[simp] theorem absorb_ERR (data : List Byte) (s : State) : (absorb data s).blk.ERR = s.blk.ERR := by
  rw [absorb_blk]

/-- R102, R103: one byte moves the cursor by one, permuting at the block boundary. -/
theorem absorbByte_cursor {s : State} (h : spongeReady s.blk = true) (x : Byte) :
    (absorbByte s x).blk.ACUR.toNat = (s.blk.ACUR.toNat + 1) % s.blk.RATE.toNat ∧
    (absorbByte s x).permuteCalls = s.permuteCalls + (s.blk.ACUR.toNat + 1) / s.blk.RATE.toNat := by
  rw [spongeReady_iff] at h
  obtain ⟨hn, hi⟩ := cursor_succ h.1 h.2.1
  obtain ⟨hm, hd⟩ := step_mod_div h.2.1
  unfold absorbByte
  simp only
  by_cases hb : s.blk.ACUR + 1 = s.blk.RATE
  · rw [if_pos hb, hm, hd, if_pos (hi.1 hb), if_pos (hi.1 hb)]
    simp
  · rw [if_neg hb, hm, hd, if_neg (mt hi.2 hb), if_neg (mt hi.2 hb)]
    simp
    omega

theorem absorbByte_ready {s : State} (h : spongeReady s.blk = true) (x : Byte) :
    spongeReady (absorbByte s x).blk = true := by
  have hc := (absorbByte_cursor h x).1
  rw [spongeReady_iff] at h ⊢
  rw [hc]
  simp only [absorbByte_RATE, absorbByte_SCUR]
  exact ⟨h.1, Nat.mod_lt _ (by omega), h.2.2⟩

/-- `AB` keeps its own precondition: "`ACUR < RATE` holds whenever `AB` returns" (R102). -/
theorem absorb_ready {s : State} (h : spongeReady s.blk = true) (data : List Byte) :
    spongeReady (absorb data s).blk = true := by
  induction data generalizing s with
  | nil => exact h
  | cons x data ih => exact ih (absorbByte_ready h x)

/-- R103: where the cursor and the count of permutations stand after `AB`. -/
theorem absorb_cursor {s : State} (h : spongeReady s.blk = true) (data : List Byte) :
    (absorb data s).blk.ACUR.toNat = (s.blk.ACUR.toNat + data.length) % s.blk.RATE.toNat ∧
    (absorb data s).permuteCalls = s.permuteCalls + (s.blk.ACUR.toNat + data.length) / s.blk.RATE.toNat := by
  induction data generalizing s with
  | nil =>
    rw [spongeReady_iff] at h
    simp [Nat.mod_eq_of_lt h.2.1, Nat.div_eq_of_lt h.2.1]
  | cons x data ih =>
    obtain ⟨hc, hp⟩ := absorbByte_cursor h x
    obtain ⟨h1, h2⟩ := ih (absorbByte_ready h x)
    obtain ⟨e1, e2⟩ := add_mod_div_succ s.blk.ACUR.toNat data.length s.blk.RATE.toNat
    rw [absorb_cons, h1, h2, hc, hp, absorbByte_RATE, List.length_cons]
    exact ⟨e1, by omega⟩

/-! ### The permutation call -/

/-- R100: the 200 bytes of `S` after the call are `permute` of the 200 bytes before it. -/
theorem permuteS_bytes (s : State) :
    (permuteS s).blk.S.readBytes 0 Config.stateBytes =
      permuteBytes s.par.permute (s.blk.S.readBytes 0 Config.stateBytes) := by
  have h := length_permuteBytes s.par.permute (Memory.length_readBytes s.blk.S 0 Config.stateBytes)
  have hb := Memory.readBytes_ofBytes (permuteBytes s.par.permute (s.blk.S.readBytes 0 Config.stateBytes))
  rwa [h] at hb

/-- The call leaves `S` in canonical form, whatever it was. -/
theorem permuteS_wf (s : State) : (permuteS s).blk.S.wf Config.stateBytes = true := by
  rw [permuteS_blk]
  exact Memory.wf_ofBytes (le_of_eq (length_permuteBytes _ (Memory.length_readBytes _ _ _)))

theorem absorbByte_wf {s : State} (h : spongeReady s.blk = true) (hs : s.blk.S.wf Config.stateBytes = true) (x : Byte) :
    (absorbByte s x).blk.S.wf Config.stateBytes = true := by
  rw [spongeReady_iff] at h
  unfold absorbByte
  simp only
  split
  · exact permuteS_wf _
  · exact Memory.wf_write hs _ (by simp only [Config.stateBytes]; omega)

/-- `AB` keeps the canonical form of `S`. -/
theorem absorb_wf {s : State} (h : spongeReady s.blk = true) (hs : s.blk.S.wf Config.stateBytes = true)
    (data : List Byte) : (absorb data s).blk.S.wf Config.stateBytes = true := by
  induction data generalizing s with
  | nil => exact hs
  | cons x data ih => exact ih (absorbByte_ready h x) (absorbByte_wf h hs x)

/-- R102: data that ends before the block boundary is exclusive-ored into `S` from `ACUR` on, and into nothing else. -/
theorem absorb_within_block {s : State} (h : spongeReady s.blk = true) (hs : s.blk.S.wf Config.stateBytes = true)
    (data : List Byte) (hd : s.blk.ACUR.toNat + data.length < s.blk.RATE.toNat) (a : Nat) :
    (absorb data s).blk.S.read a =
      if s.blk.ACUR.toNat ≤ a ∧ a < s.blk.ACUR.toNat + data.length then
        s.blk.S.read a ^^^ data.getD (a - s.blk.ACUR.toNat) 0
      else s.blk.S.read a := by
  induction data generalizing s with
  | nil => simp
  | cons x data ih =>
    simp only [List.length_cons] at hd ⊢
    have hr := (spongeReady_iff _).1 h
    obtain ⟨hc, -⟩ := absorbByte_cursor h x
    rw [Nat.mod_eq_of_lt (by omega)] at hc
    have hS : (absorbByte s x).blk.S = s.blk.S.write s.blk.ACUR.toNat (s.blk.S.read s.blk.ACUR.toNat ^^^ x) := by
      have := (cursor_succ hr.1 hr.2.1).2
      unfold absorbByte
      simp only
      rw [if_neg (by rw [this]; omega)]
      simp
    rw [absorb_cons, ih (absorbByte_ready h x) (absorbByte_wf h hs x) (by rw [hc, absorbByte_RATE]; omega), hS, hc,
      Memory.read_write hs]
    by_cases h1 : a = s.blk.ACUR.toNat
    · subst h1
      simp
    · by_cases h2 : s.blk.ACUR.toNat + 1 ≤ a ∧ a < s.blk.ACUR.toNat + 1 + data.length
      · obtain ⟨k, rfl⟩ : ∃ k, a = s.blk.ACUR.toNat + 1 + k := ⟨a - s.blk.ACUR.toNat - 1, by omega⟩
        rw [if_pos h2, if_neg h1, if_pos (by omega),
          show s.blk.ACUR.toNat + 1 + k - (s.blk.ACUR.toNat + 1) = k by omega,
          show s.blk.ACUR.toNat + 1 + k - s.blk.ACUR.toNat = k + 1 by omega, List.getD_cons_succ]
      · rw [if_neg h2, if_neg h1, if_neg (by omega)]

/-! ### The padding step -/

/-- R104: `FINPAD` writes `S`, `ACUR`, `SCUR` and `PHASE`, and calls `Permute()` once. -/
theorem finpad_blk (s : State) :
    (finpad s).blk = { s.blk with S := (finpad s).blk.S, ACUR := 0, SCUR := 0, PHASE := .squeezing } := by
  simp [finpad]

@[simp] theorem finpad_par (s : State) : (finpad s).par = s.par := rfl
@[simp] theorem finpad_ext (s : State) : (finpad s).ext = s.ext := rfl
@[simp] theorem finpad_cmd (s : State) : (finpad s).cmd = s.cmd := rfl
@[simp] theorem finpad_cpos (s : State) : (finpad s).cpos = s.cpos := rfl
@[simp] theorem finpad_resp (s : State) : (finpad s).resp = s.resp := rfl
@[simp] theorem finpad_resetPending (s : State) : (finpad s).resetPending = s.resetPending := rfl
@[simp] theorem finpad_permuteCalls (s : State) : (finpad s).permuteCalls = s.permuteCalls + 1 := rfl

theorem finpad_wf (s : State) : (finpad s).blk.S.wf Config.stateBytes = true := permuteS_wf _

/-- R106: the finalization, if due, writes `S`, `ACUR`, `SCUR` and `PHASE`. -/
theorem finalizeSponge_blk (s : State) :
    (finalizeSponge s).blk = { s.blk with
      S := (finalizeSponge s).blk.S, ACUR := (finalizeSponge s).blk.ACUR,
      SCUR := (finalizeSponge s).blk.SCUR, PHASE := .squeezing } := by
  unfold finalizeSponge
  split <;> rename_i h
  · rw [finpad_blk]
  · cases hp : s.blk.PHASE with
    | absorbing => exact absurd hp h
    | squeezing => rw [← hp]

@[simp] theorem finalizeSponge_par (s : State) : (finalizeSponge s).par = s.par := by
  unfold finalizeSponge; split <;> rfl
@[simp] theorem finalizeSponge_ext (s : State) : (finalizeSponge s).ext = s.ext := by
  unfold finalizeSponge; split <;> rfl
@[simp] theorem finalizeSponge_cmd (s : State) : (finalizeSponge s).cmd = s.cmd := by
  unfold finalizeSponge; split <;> rfl
@[simp] theorem finalizeSponge_cpos (s : State) : (finalizeSponge s).cpos = s.cpos := by
  unfold finalizeSponge; split <;> rfl
@[simp] theorem finalizeSponge_resp (s : State) : (finalizeSponge s).resp = s.resp := by
  unfold finalizeSponge; split <;> rfl
@[simp] theorem finalizeSponge_resetPending (s : State) : (finalizeSponge s).resetPending = s.resetPending := by
  unfold finalizeSponge; split <;> rfl
@[simp] theorem finalizeSponge_RATE (s : State) : (finalizeSponge s).blk.RATE = s.blk.RATE := by
  rw [finalizeSponge_blk]
@[simp] theorem finalizeSponge_CAP (s : State) : (finalizeSponge s).blk.CAP = s.blk.CAP := by
  rw [finalizeSponge_blk]
@[simp] theorem finalizeSponge_DSBYTE (s : State) : (finalizeSponge s).blk.DSBYTE = s.blk.DSBYTE := by
  rw [finalizeSponge_blk]
@[simp] theorem finalizeSponge_MODE (s : State) : (finalizeSponge s).blk.MODE = s.blk.MODE := by
  rw [finalizeSponge_blk]
@[simp] theorem finalizeSponge_OUTLEN (s : State) : (finalizeSponge s).blk.OUTLEN = s.blk.OUTLEN := by
  rw [finalizeSponge_blk]
@[simp] theorem finalizeSponge_FINALIZED (s : State) : (finalizeSponge s).blk.FINALIZED = s.blk.FINALIZED := by
  rw [finalizeSponge_blk]
@[simp] theorem finalizeSponge_DCACHE (s : State) : (finalizeSponge s).blk.DCACHE = s.blk.DCACHE := by
  rw [finalizeSponge_blk]
@[simp] theorem finalizeSponge_PSEL (s : State) : (finalizeSponge s).blk.PSEL = s.blk.PSEL := by
  rw [finalizeSponge_blk]
@[simp] theorem finalizeSponge_ERR (s : State) : (finalizeSponge s).blk.ERR = s.blk.ERR := by
  rw [finalizeSponge_blk]
@[simp] theorem finalizeSponge_PHASE (s : State) : (finalizeSponge s).blk.PHASE = .squeezing := by
  rw [finalizeSponge_blk]

/-- R107: the call of `FINPAD()` is counted, where it is due. -/
theorem finalizeSponge_permuteCalls (s : State) :
    (finalizeSponge s).permuteCalls = s.permuteCalls + if s.blk.PHASE = .absorbing then 1 else 0 := by
  unfold finalizeSponge; split <;> rfl

theorem finalizeSponge_ready {s : State} (h : spongeReady s.blk = true) : spongeReady (finalizeSponge s).blk = true := by
  unfold finalizeSponge
  split
  · rw [spongeReady_iff] at h ⊢
    rw [finpad_blk]
    simp only [BitVec.toNat_zero, BitVec.ofNat_eq_ofNat]
    omega
  · exact h

theorem finalizeSponge_wf {s : State} (hs : s.blk.S.wf Config.stateBytes = true) :
    (finalizeSponge s).blk.S.wf Config.stateBytes = true := by
  unfold finalizeSponge
  split
  · exact finpad_wf s
  · exact hs

/-! ### The squeeze step -/

/-- R106: one emitted byte changes only `S` and `SCUR`. -/
theorem squeezeStep_blk (s : State) :
    (squeezeStep s).blk = { s.blk with S := (squeezeStep s).blk.S, SCUR := (squeezeStep s).blk.SCUR } := by
  unfold squeezeStep
  simp only
  split <;> simp

@[simp] theorem squeezeStep_par (s : State) : (squeezeStep s).par = s.par := by
  unfold squeezeStep; simp only; split <;> rfl
@[simp] theorem squeezeStep_ext (s : State) : (squeezeStep s).ext = s.ext := by
  unfold squeezeStep; simp only; split <;> rfl
@[simp] theorem squeezeStep_cmd (s : State) : (squeezeStep s).cmd = s.cmd := by
  unfold squeezeStep; simp only; split <;> rfl
@[simp] theorem squeezeStep_cpos (s : State) : (squeezeStep s).cpos = s.cpos := by
  unfold squeezeStep; simp only; split <;> rfl
@[simp] theorem squeezeStep_resp (s : State) : (squeezeStep s).resp = s.resp := by
  unfold squeezeStep; simp only; split <;> rfl
@[simp] theorem squeezeStep_resetPending (s : State) : (squeezeStep s).resetPending = s.resetPending := by
  unfold squeezeStep; simp only; split <;> rfl
@[simp] theorem squeezeStep_RATE (s : State) : (squeezeStep s).blk.RATE = s.blk.RATE := by
  rw [squeezeStep_blk]
@[simp] theorem squeezeStep_CAP (s : State) : (squeezeStep s).blk.CAP = s.blk.CAP := by
  rw [squeezeStep_blk]
@[simp] theorem squeezeStep_DSBYTE (s : State) : (squeezeStep s).blk.DSBYTE = s.blk.DSBYTE := by
  rw [squeezeStep_blk]
@[simp] theorem squeezeStep_PHASE (s : State) : (squeezeStep s).blk.PHASE = s.blk.PHASE := by
  rw [squeezeStep_blk]
@[simp] theorem squeezeStep_MODE (s : State) : (squeezeStep s).blk.MODE = s.blk.MODE := by
  rw [squeezeStep_blk]
@[simp] theorem squeezeStep_OUTLEN (s : State) : (squeezeStep s).blk.OUTLEN = s.blk.OUTLEN := by
  rw [squeezeStep_blk]
@[simp] theorem squeezeStep_FINALIZED (s : State) : (squeezeStep s).blk.FINALIZED = s.blk.FINALIZED := by
  rw [squeezeStep_blk]
@[simp] theorem squeezeStep_DCACHE (s : State) : (squeezeStep s).blk.DCACHE = s.blk.DCACHE := by
  rw [squeezeStep_blk]
@[simp] theorem squeezeStep_PSEL (s : State) : (squeezeStep s).blk.PSEL = s.blk.PSEL := by
  rw [squeezeStep_blk]
@[simp] theorem squeezeStep_ERR (s : State) : (squeezeStep s).blk.ERR = s.blk.ERR := by
  rw [squeezeStep_blk]
@[simp] theorem squeezeStep_ACUR (s : State) : (squeezeStep s).blk.ACUR = s.blk.ACUR := by
  rw [squeezeStep_blk]

theorem squeezeStep_cursor {s : State} (h : spongeReady s.blk = true) :
    (squeezeStep s).blk.SCUR.toNat = (s.blk.SCUR.toNat + 1) % s.blk.RATE.toNat ∧
    (squeezeStep s).permuteCalls = s.permuteCalls + (s.blk.SCUR.toNat + 1) / s.blk.RATE.toNat := by
  rw [spongeReady_iff] at h
  obtain ⟨hn, hi⟩ := cursor_succ h.1 h.2.2
  obtain ⟨hm, hd⟩ := step_mod_div h.2.2
  unfold squeezeStep
  simp only
  by_cases hb : s.blk.SCUR + 1 = s.blk.RATE
  · rw [if_pos hb, hm, hd, if_pos (hi.1 hb), if_pos (hi.1 hb)]
    simp
  · rw [if_neg hb, hm, hd, if_neg (mt hi.2 hb), if_neg (mt hi.2 hb)]
    simp
    omega

theorem squeezeStep_ready {s : State} (h : spongeReady s.blk = true) : spongeReady (squeezeStep s).blk = true := by
  have hc := (squeezeStep_cursor h).1
  rw [spongeReady_iff] at h ⊢
  rw [hc]
  simp only [squeezeStep_RATE, squeezeStep_ACUR]
  exact ⟨h.1, h.2.1, Nat.mod_lt _ (by omega)⟩

theorem squeezeStep_wf {s : State} (hs : s.blk.S.wf Config.stateBytes = true) :
    (squeezeStep s).blk.S.wf Config.stateBytes = true := by
  unfold squeezeStep
  simp only
  split
  · exact permuteS_wf _
  · exact hs

@[simp] theorem squeezeOut_zero (s : State) : squeezeOut 0 s = [] := rfl

@[simp] theorem squeezeEnd_zero (s : State) : squeezeEnd 0 s = s := rfl

theorem squeezeOut_succ (n : Nat) (s : State) :
    squeezeOut (n + 1) s = s.blk.S.read s.blk.SCUR.toNat :: squeezeOut n (squeezeStep s) := rfl

theorem squeezeEnd_succ (n : Nat) (s : State) : squeezeEnd (n + 1) s = squeezeEnd n (squeezeStep s) := rfl

/-- R106: exactly `n` bytes. -/
@[simp] theorem length_squeezeOut (n : Nat) (s : State) : (squeezeOut n s).length = n := by
  induction n generalizing s with
  | zero => rfl
  | succ n ih => simp [squeezeOut_succ, ih]

/-- R109: the bytes of `m` and then `n` are the bytes of `m + n`. -/
theorem squeezeOut_add (m n : Nat) (s : State) :
    squeezeOut (m + n) s = squeezeOut m s ++ squeezeOut n (squeezeEnd m s) := by
  induction m generalizing s with
  | zero => simp
  | succ m ih =>
    rw [show m + 1 + n = m + n + 1 by omega, squeezeOut_succ, ih, squeezeOut_succ, squeezeEnd_succ]
    rfl

/-- R109: the state after `m` and then `n` bytes is the state after `m + n`. -/
theorem squeezeEnd_add (m n : Nat) (s : State) : squeezeEnd (m + n) s = squeezeEnd n (squeezeEnd m s) := by
  induction m generalizing s with
  | zero => simp
  | succ m ih => rw [show m + 1 + n = m + n + 1 by omega, squeezeEnd_succ, ih, squeezeEnd_succ]

/-- R106: the loop changes only `S` and `SCUR`. -/
theorem squeezeEnd_blk (n : Nat) (s : State) :
    (squeezeEnd n s).blk = { s.blk with S := (squeezeEnd n s).blk.S, SCUR := (squeezeEnd n s).blk.SCUR } := by
  induction n generalizing s with
  | zero => rfl
  | succ n ih =>
    rw [squeezeEnd_succ, ih (squeezeStep s)]
    simp

@[simp] theorem squeezeEnd_par (n : Nat) (s : State) : (squeezeEnd n s).par = s.par := by
  induction n generalizing s with
  | zero => rfl
  | succ n ih => rw [squeezeEnd_succ, ih, squeezeStep_par]

@[simp] theorem squeezeEnd_ext (n : Nat) (s : State) : (squeezeEnd n s).ext = s.ext := by
  induction n generalizing s with
  | zero => rfl
  | succ n ih => rw [squeezeEnd_succ, ih, squeezeStep_ext]

@[simp] theorem squeezeEnd_cmd (n : Nat) (s : State) : (squeezeEnd n s).cmd = s.cmd := by
  induction n generalizing s with
  | zero => rfl
  | succ n ih => rw [squeezeEnd_succ, ih, squeezeStep_cmd]

@[simp] theorem squeezeEnd_cpos (n : Nat) (s : State) : (squeezeEnd n s).cpos = s.cpos := by
  induction n generalizing s with
  | zero => rfl
  | succ n ih => rw [squeezeEnd_succ, ih, squeezeStep_cpos]

@[simp] theorem squeezeEnd_resp (n : Nat) (s : State) : (squeezeEnd n s).resp = s.resp := by
  induction n generalizing s with
  | zero => rfl
  | succ n ih => rw [squeezeEnd_succ, ih, squeezeStep_resp]

@[simp] theorem squeezeEnd_resetPending (n : Nat) (s : State) : (squeezeEnd n s).resetPending = s.resetPending := by
  induction n generalizing s with
  | zero => rfl
  | succ n ih => rw [squeezeEnd_succ, ih, squeezeStep_resetPending]

@[simp] theorem squeezeEnd_RATE (n : Nat) (s : State) : (squeezeEnd n s).blk.RATE = s.blk.RATE := by
  rw [squeezeEnd_blk]
@[simp] theorem squeezeEnd_CAP (n : Nat) (s : State) : (squeezeEnd n s).blk.CAP = s.blk.CAP := by
  rw [squeezeEnd_blk]
@[simp] theorem squeezeEnd_DSBYTE (n : Nat) (s : State) : (squeezeEnd n s).blk.DSBYTE = s.blk.DSBYTE := by
  rw [squeezeEnd_blk]
@[simp] theorem squeezeEnd_PHASE (n : Nat) (s : State) : (squeezeEnd n s).blk.PHASE = s.blk.PHASE := by
  rw [squeezeEnd_blk]
@[simp] theorem squeezeEnd_MODE (n : Nat) (s : State) : (squeezeEnd n s).blk.MODE = s.blk.MODE := by
  rw [squeezeEnd_blk]
@[simp] theorem squeezeEnd_OUTLEN (n : Nat) (s : State) : (squeezeEnd n s).blk.OUTLEN = s.blk.OUTLEN := by
  rw [squeezeEnd_blk]
@[simp] theorem squeezeEnd_FINALIZED (n : Nat) (s : State) : (squeezeEnd n s).blk.FINALIZED = s.blk.FINALIZED := by
  rw [squeezeEnd_blk]
@[simp] theorem squeezeEnd_DCACHE (n : Nat) (s : State) : (squeezeEnd n s).blk.DCACHE = s.blk.DCACHE := by
  rw [squeezeEnd_blk]
@[simp] theorem squeezeEnd_PSEL (n : Nat) (s : State) : (squeezeEnd n s).blk.PSEL = s.blk.PSEL := by
  rw [squeezeEnd_blk]
@[simp] theorem squeezeEnd_ERR (n : Nat) (s : State) : (squeezeEnd n s).blk.ERR = s.blk.ERR := by
  rw [squeezeEnd_blk]
@[simp] theorem squeezeEnd_ACUR (n : Nat) (s : State) : (squeezeEnd n s).blk.ACUR = s.blk.ACUR := by
  rw [squeezeEnd_blk]

theorem squeezeEnd_ready {s : State} (h : spongeReady s.blk = true) (n : Nat) :
    spongeReady (squeezeEnd n s).blk = true := by
  induction n generalizing s with
  | zero => exact h
  | succ n ih => exact ih (squeezeStep_ready h)

theorem squeezeEnd_wf {s : State} (hs : s.blk.S.wf Config.stateBytes = true) (n : Nat) :
    (squeezeEnd n s).blk.S.wf Config.stateBytes = true := by
  induction n generalizing s with
  | zero => exact hs
  | succ n ih => exact ih (squeezeStep_wf hs)

/-- R107: where the cursor and the count of permutations stand after the loop. -/
theorem squeezeEnd_cursor {s : State} (h : spongeReady s.blk = true) (n : Nat) :
    (squeezeEnd n s).blk.SCUR.toNat = (s.blk.SCUR.toNat + n) % s.blk.RATE.toNat ∧
    (squeezeEnd n s).permuteCalls = s.permuteCalls + (s.blk.SCUR.toNat + n) / s.blk.RATE.toNat := by
  induction n generalizing s with
  | zero =>
    rw [spongeReady_iff] at h
    simp [Nat.mod_eq_of_lt h.2.2, Nat.div_eq_of_lt h.2.2]
  | succ n ih =>
    obtain ⟨hc, hp⟩ := squeezeStep_cursor h
    obtain ⟨h1, h2⟩ := ih (squeezeStep_ready h)
    obtain ⟨e1, e2⟩ := add_mod_div_succ s.blk.SCUR.toNat n s.blk.RATE.toNat
    rw [squeezeEnd_succ, h1, h2, hc, hp, squeezeStep_RATE]
    exact ⟨e1, by omega⟩

/-- R106, R113: while the request stays in the block, the bytes come from `S[SCUR ..]` in index order and `S` stays. -/
theorem squeeze_within_block {s : State} (h : spongeReady s.blk = true) (n : Nat)
    (hn : s.blk.SCUR.toNat + n < s.blk.RATE.toNat) :
    squeezeOut n s = s.blk.S.readBytes s.blk.SCUR.toNat n ∧ (squeezeEnd n s).blk.S = s.blk.S := by
  induction n generalizing s with
  | zero => exact ⟨by simp [Memory.readBytes], rfl⟩
  | succ n ih =>
    have hr := (spongeReady_iff _).1 h
    obtain ⟨hc, -⟩ := squeezeStep_cursor h
    rw [Nat.mod_eq_of_lt (by omega)] at hc
    have hS : (squeezeStep s).blk.S = s.blk.S := by
      have := (cursor_succ hr.1 hr.2.2).2
      unfold squeezeStep
      simp only
      rw [if_neg (by rw [this]; omega)]
      simp
    obtain ⟨h1, h2⟩ := ih (squeezeStep_ready h) (by rw [hc, squeezeStep_RATE]; omega)
    rw [squeezeOut_succ, squeezeEnd_succ, h1, h2, hS, hc]
    refine ⟨?_, rfl⟩
    rw [show n + 1 = 1 + n by omega, Memory.readBytes_add]
    simp [Memory.readBytes]

/-! ### `SQ` -/

theorem squeeze_fst (n : Nat) (s : State) : (squeeze n s).1 = squeezeOut n (finalizeSponge s) := rfl

theorem squeeze_snd (n : Nat) (s : State) : (squeeze n s).2 = squeezeEnd n (finalizeSponge s) := rfl

@[simp] theorem length_squeeze (n : Nat) (s : State) : (squeeze n s).1.length = n := length_squeezeOut _ _

/-- R106: `SQ` writes only `S`, `ACUR`, `SCUR` and `PHASE`. -/
theorem squeeze_blk (n : Nat) (s : State) :
    (squeeze n s).2.blk = { s.blk with
      S := (squeeze n s).2.blk.S, ACUR := (squeeze n s).2.blk.ACUR,
      SCUR := (squeeze n s).2.blk.SCUR, PHASE := .squeezing } := by
  rw [squeeze_snd, squeezeEnd_blk, finalizeSponge_blk]

/-- A finalized sponge stays as it is. -/
theorem finalizeSponge_of_squeezing {s : State} (h : s.blk.PHASE = .squeezing) : finalizeSponge s = s := by
  simp [finalizeSponge, h]

/-- R109: `SQ(m)` followed by `SQ(n)` returns the bytes of `SQ(m + n)` and leaves its state. -/
theorem squeeze_add (m n : Nat) (s : State) :
    squeeze (m + n) s = ((squeeze m s).1 ++ (squeeze n (squeeze m s).2).1, (squeeze n (squeeze m s).2).2) := by
  have h : finalizeSponge (squeezeEnd m (finalizeSponge s)) = squeezeEnd m (finalizeSponge s) :=
    finalizeSponge_of_squeezing (by simp)
  simp only [squeeze, h, squeezeOut_add, squeezeEnd_add]

end Sys2Proof.Machine
end

