-- ==== Sys2Proof/Laws/Exec.lean ====
section
/-! SUPPORT. Once per meaning, everything it can do when it answers a next state; and the digest and the provider request that
they share. -/

namespace Sys2Proof.Machine

/-! ### Shared operations -/

/-- R133: what `FINALIZE()` writes. -/
theorem finalizeDigest_blk (s : State) :
    (finalizeDigest s).blk = { s.blk with
      S := (finalizeDigest s).blk.S, ACUR := (finalizeDigest s).blk.ACUR, SCUR := (finalizeDigest s).blk.SCUR,
      PHASE := .squeezing, FINALIZED := true, DCACHE := (finalizeDigest s).blk.DCACHE } := by
  unfold finalizeDigest
  simp only
  rw [squeeze_blk]

theorem finalizeDigest_env (s : State) :
    (finalizeDigest s).par = s.par ∧ (finalizeDigest s).ext = s.ext ∧ (finalizeDigest s).cmd = s.cmd ∧
    (finalizeDigest s).cpos = s.cpos ∧ (finalizeDigest s).resp = s.resp ∧
    (finalizeDigest s).resetPending = s.resetPending := by
  simp [finalizeDigest, squeeze_snd]

@[simp] theorem length_digestBytes (b : Block) : (digestBytes b).length = b.OUTLEN.toNat :=
  Memory.length_readBytes _ _ _

/-- R152, R153, R106: a provider request returns exactly `n` bytes. -/
@[simp] theorem length_psq (n : Nat) (s : State) : (psq n s).1.length = n := by
  unfold psq
  split <;> simp [extSqueeze]

theorem psq_int {s : State} (h : s.blk.PSEL = .int) (n : Nat) : psq n s = squeeze n s := by simp [psq, h]

theorem psq_ext {s : State} (h : s.blk.PSEL = .ext) (n : Nat) :
    psq n s = ((providerSqueeze s.ext n).1, { s with ext := (providerSqueeze s.ext n).2 }) := by
  simp [psq, h, extSqueeze]

/-- A provider request leaves the host's side of the port and the parameters alone. -/
theorem psq_env (n : Nat) (s : State) :
    (psq n s).2.par = s.par ∧ (psq n s).2.cmd = s.cmd ∧ (psq n s).2.cpos = s.cpos ∧ (psq n s).2.resp = s.resp ∧
    (psq n s).2.resetPending = s.resetPending := by
  unfold psq
  split <;> simp [extSqueeze, squeeze_snd]

/-! ### Availability (R83) -/

@[simp] theorem spongeAvailable_iff (b : Block) : spongeAvailable b = true ↔ b.MODE = .raw := by simp [spongeAvailable]

@[simp] theorem hashAvailable_iff (b : Block) : hashAvailable b = true ↔ b.MODE = .hash := by simp [hashAvailable]

@[simp] theorem extractorAvailable_iff (b : Block) :
    extractorAvailable b = true ↔ b.PSEL = .ext ∨ b.MODE = .raw := by simp [extractorAvailable]

/-! ### What each meaning can answer -/

theorem execSinit_next {rate cap ds : Byte} {s t : State} (h : execSinit rate cap ds s = .next t) :
    (dsReserved ds = true ∧ t = raise .illegalCommand s) ∨
    (dsReserved ds = false ∧ rateCapOk rate cap = false ∧ t = raise .configurationError s) ∨
    (dsReserved ds = false ∧ rateCapOk rate cap = true ∧ t = respond [] (construct .raw rate cap ds 0 s)) := by
  unfold execSinit at h
  split at h <;> rename_i h1
  · exact .inl ⟨h1, by cases h; rfl⟩
  · split at h <;> rename_i h2
    · exact .inr (.inr ⟨by simpa using h1, h2, by cases h; rfl⟩)
    · exact .inr (.inl ⟨by simpa using h1, by simpa using h2, by cases h; rfl⟩)

theorem execAbsorb_next {data : List Byte} {s t : State} (h : execAbsorb data s = .next t) :
    (s.blk.MODE ≠ .raw ∧ t = raise .illegalCommand s) ∨
    (s.blk.MODE = .raw ∧ s.blk.PHASE = .squeezing ∧ t = raise .stateError s) ∨
    (s.blk.MODE = .raw ∧ s.blk.PHASE = .absorbing ∧ spongeReady s.blk = true ∧ t = respond [] (absorb data s)) := by
  unfold execAbsorb at h
  simp only [spongeAvailable_iff] at h
  split at h <;> rename_i h1
  · split at h <;> rename_i h2
    · split at h <;> rename_i h3
      · exact .inr (.inr ⟨h1, h2, h3, by cases h; rfl⟩)
      · cases h
    · exact .inr (.inl ⟨h1, by cases hp : s.blk.PHASE <;> simp_all, by cases h; rfl⟩)
  · exact .inl ⟨h1, by cases h; rfl⟩

theorem execSqueeze_next {n : BitVec 24} {s t : State} (h : execSqueeze n s = .next t) :
    (s.blk.MODE ≠ .raw ∧ t = raise .illegalCommand s) ∨
    (s.blk.MODE = .raw ∧ spongeReady s.blk = true ∧
      t = respond (squeeze n.toNat s).1 (squeeze n.toNat s).2) := by
  unfold execSqueeze at h
  simp only [spongeAvailable_iff] at h
  split at h <;> rename_i h1
  · split at h <;> rename_i h2
    · exact .inr ⟨h1, h2, by cases h; rfl⟩
    · cases h
  · exact .inl ⟨h1, by cases h; rfl⟩

theorem execHinit_next {var : Byte} {data : List Byte} {s t : State} (h : execHinit var data s = .next t) :
    (variantRow var = none ∧ t = raise .configurationError s) ∨
    (∃ v, variantRow var = some v ∧
      t = respond [] (absorb data (construct .hash v.rate v.cap s.par.hashDsbyte v.outlen s))) := by
  unfold execHinit at h
  split at h <;> rename_i h1
  · exact .inr ⟨_, h1, by cases h; rfl⟩
  · exact .inl ⟨h1, by cases h; rfl⟩

theorem execUpdate_next {data : List Byte} {s t : State} (h : execUpdate data s = .next t) :
    (s.blk.MODE ≠ .hash ∧ t = raise .illegalCommand s) ∨
    (s.blk.MODE = .hash ∧ s.blk.FINALIZED = true ∧ t = raise .stateError s) ∨
    (s.blk.MODE = .hash ∧ s.blk.FINALIZED = false ∧ spongeReady s.blk = true ∧ t = respond [] (absorb data s)) := by
  unfold execUpdate at h
  simp only [hashAvailable_iff] at h
  split at h <;> rename_i h1
  · split at h <;> rename_i h2
    · exact .inr (.inl ⟨h1, h2, by cases h; rfl⟩)
    · split at h <;> rename_i h3
      · exact .inr (.inr ⟨h1, by simpa using h2, h3, by cases h; rfl⟩)
      · cases h
  · exact .inl ⟨h1, by cases h; rfl⟩

/-- Shared by DIGEST and HEXDIGEST. -/
theorem reportDigest_next {text : List Byte → List Byte} {s t : State} (h : reportDigest text s = .next t) :
    (s.blk.MODE ≠ .hash ∧ t = raise .illegalCommand s) ∨
    (s.blk.MODE = .hash ∧ digestReady s.blk = true ∧ s.blk.FINALIZED = true ∧
      t = respond (text (digestBytes s.blk)) s) ∨
    (s.blk.MODE = .hash ∧ digestReady s.blk = true ∧ s.blk.FINALIZED = false ∧ spongeReady s.blk = true ∧
      t = respond (text (digestBytes (finalizeDigest s).blk)) (finalizeDigest s)) := by
  unfold reportDigest at h
  simp only [hashAvailable_iff] at h
  split at h <;> rename_i h1
  · split at h <;> rename_i h2
    · split at h <;> rename_i h3
      · exact .inr (.inl ⟨h1, h2, h3, by cases h; rfl⟩)
      · split at h <;> rename_i h4
        · exact .inr (.inr ⟨h1, h2, by simpa using h3, h4, by cases h; rfl⟩)
        · cases h
    · cases h
  · exact .inl ⟨h1, by cases h; rfl⟩

theorem execRbind_next {p : ProviderSel} {s t : State} (h : execRbind p s = .next t) :
    t = respond [] { s with blk := { s.blk with PSEL := p } } := by cases h; rfl

/-- Shared by GETRANDBITS and RANDOM. -/
theorem draw_next {n : Nat} {f : Nat → List Byte} {s t : State} (h : draw n f s = .next t) :
    (s.blk.PSEL = .int ∧ s.blk.MODE ≠ .raw ∧ t = raise .illegalCommand s) ∨
    (s.blk.PSEL = .ext ∧ t = respond (f (be (psq n s).1)) (psq n s).2) ∨
    (s.blk.PSEL = .int ∧ s.blk.MODE = .raw ∧ spongeReady s.blk = true ∧
      t = respond (f (be (psq n s).1)) (psq n s).2) := by
  unfold draw at h
  simp only [extractorAvailable_iff] at h
  split at h <;> rename_i h1
  · split at h <;> rename_i h2
    · cases hp : s.blk.PSEL with
      | ext => exact .inr (.inl ⟨rfl, by cases h; rfl⟩)
      | int =>
        refine .inr (.inr ⟨rfl, by simpa [hp] using h1, by simpa [psqReady, hp] using h2, by cases h; rfl⟩)
    · cases h
  · rw [not_or] at h1
    exact .inl ⟨by cases hp : s.blk.PSEL <;> simp_all, h1.2, by cases h; rfl⟩

theorem execGetrandbits_next {k : BitVec 24} {s t : State} (h : execGetrandbits k s = .next t) :
    (k = 0 ∧ t = raise .illegalCommand s) ∨
    (k ≠ 0 ∧ draw (ceilDiv k.toNat 8) (fun v => beBytes (lowBits v k.toNat) (ceilDiv k.toNat 8)) s = .next t) := by
  unfold execGetrandbits at h
  split at h <;> rename_i h1
  · exact .inl ⟨h1, by cases h; rfl⟩
  · exact .inr ⟨h1, h⟩

theorem execStat_next {s t : State} (h : execStat s = .next t) : t = respond (statusRegisters s.blk) s := by
  cases h; rfl

end Sys2Proof.Machine
end

