-- ==== Sys2Proof/Laws/PerInstr.lean ====
section
/-! SUPPORT. For every command: the bytes it is sent as are its word's four and its payload (R70, R78), so a well-formed
command occupies `4 + paylen` bytes of the command stream. -/

namespace Sys2Proof.Laws.EncodedLength

/-- R70, R78: a command occupies four bytes and its payload. -/
def Statement (i : Instr) : Prop := (encode i).length = 4 + i.payload.length

theorem anyLength (i : Instr) : Statement i := by simp [Statement, encode, wordBytes]; omega

theorem sinit (rate cap ds : Byte) : Statement (.sinit rate cap ds) := anyLength _
theorem absorb (data : List Byte) : Statement (.absorb data) := anyLength _
theorem squeeze (n : BitVec 24) : Statement (.squeeze n) := anyLength _
theorem hinit (var : Byte) (data : List Byte) : Statement (.hinit var data) := anyLength _
theorem update (data : List Byte) : Statement (.update data) := anyLength _
theorem digest : Statement .digest := anyLength _
theorem hexdigest : Statement .hexdigest := anyLength _
theorem rbind (psel : ProviderSel) : Statement (.rbind psel) := anyLength _
theorem getrandbits (k : BitVec 24) : Statement (.getrandbits k) := anyLength _
theorem random : Statement .random := anyLength _
theorem stat : Statement .stat := anyLength _

end Sys2Proof.Laws.EncodedLength
end

