-- ==== Sys2Proof/Laws/Step.lean ====
section
/-! SUPPORT. What a step can do, once for all commands, and what the invariant gives the meanings that ask for the
preconditions of the Sponge's operations. -/

namespace Sys2Proof.Machine

/-- R85, R210: the three ways a step answers a next state. -/
theorem step_next {s t : State} (h : step s = .next t) :
    (s.resetPending = true ∧ t = resetEvent s) ∨
    (s.resetPending = false ∧ ∃ i rest, decode s.cmd = .command i rest ∧
      exec i (takeCommand (4 + i.payload.length) rest s) = .next t) ∨
    (s.resetPending = false ∧ ∃ w rest, decode s.cmd = .undefinedWord w rest ∧
      t = raise .illegalCommand (takeCommand 4 rest s)) := by
  unfold step at h
  split at h <;> rename_i hr
  · exact .inl ⟨hr, by cases h; rfl⟩
  · have hr' : s.resetPending = false := by simpa using hr
    split at h
    · rename_i i rest hd
      exact .inr (.inl ⟨hr', i, rest, hd, h⟩)
    · rename_i w rest hd
      exact .inr (.inr ⟨hr', w, rest, hd, by cases h; rfl⟩)
    · cases h
    · cases h
    · cases h

/-- R27: the preconditions of `AB`, `FINPAD` and `SQ` hold of every instance. -/
theorem spongeReady_of_inv {s : State} (h : Inv s) (hm : s.blk.MODE ≠ .none) : spongeReady s.blk = true :=
  (spongeReady_iff _).2 ⟨(h.sponge hm).rateMax, (h.sponge hm).acurLt, (h.sponge hm).scurLt⟩

/-- R33: `OUTLEN` is 28, 32, 48 or 64, so the digest store holds the digest. -/
theorem digestReady_of_inv {s : State} (h : Inv s) (hm : s.blk.MODE = .hash) : digestReady s.blk = true := by
  obtain ⟨v, hv, -, -, ho⟩ := (h.hash hm).row
  have : ∀ v ∈ variantTable, v.outlen.toNat ≤ Config.dcacheBytes := by decide
  simp [digestReady, ho, this v hv]

/-- Taking a command off the stream touches nothing the invariant speaks of. -/
theorem inv_takeCommand {s : State} (h : Inv s) (len : Nat) (rest : List Byte) : Inv (takeCommand len rest s) :=
  ⟨h.sWf, h.dcacheWf, h.errLegal, h.hashDsbyte, h.sponge, h.none, h.raw, h.hash⟩

end Sys2Proof.Machine
end

