-- ==== Sys2Proof/Tests/Slice0.lean ====
section
/-! SUPPORT. Decode tests with words written out from the spec's encodings, the smoke test of `Instr.wellFormed`, one-step
tests whose results are those of 95_test_vectors.md, and for each statement with hypotheses a state and operands that meet
them. -/

namespace Sys2Proof.Tests

open Sys2Proof Sys2Proof.Machine

/-! ### Helpers -/

/-- From reset (R45), with a test double for `permute`, `HASH_DSBYTE = 0x06`, a provider, and a command stream. -/
def fresh (p : PermuteSel) (e : Provider) (cmd : List Byte) : State :=
  { State.reset with par := ⟨p, 0x06⟩, ext := e, cmd := cmd }

/-- V2: a RAW instance of rate 4 with "ab" absorbed. -/
def absorbing (p : PermuteSel) (cmd : List Byte) : State :=
  { fresh p .ones cmd with
    blk := { S := [(0, 0x61), (1, 0x62)], RATE := 4, CAP := 196, DSBYTE := 0x06, ACUR := 2, SCUR := 0,
             PHASE := .absorbing, MODE := .raw, OUTLEN := 0, FINALIZED := false, DCACHE := [], PSEL := .int, ERR := 0 } }

/-- A RAW instance of rate 4 that squeezes: one byte of the block is emitted. -/
def squeezing (p : PermuteSel) (cmd : List Byte) : State :=
  { fresh p .ones cmd with
    blk := { S := [(0, 0x61), (1, 0x62), (3, 0x80), (199, 0x01)], RATE := 4, CAP := 196, DSBYTE := 0x06, ACUR := 0,
             SCUR := 1, PHASE := .squeezing, MODE := .raw, OUTLEN := 0, FINALIZED := false, DCACHE := [], PSEL := .int,
             ERR := 0 } }

/-- A SHA3-512 Hash Engine with "a" absorbed. -/
def feeding (p : PermuteSel) (cmd : List Byte) : State :=
  { fresh p .ones cmd with
    blk := { S := [(0, 0x61)], RATE := 72, CAP := 128, DSBYTE := 0x06, ACUR := 1, SCUR := 0, PHASE := .absorbing,
             MODE := .hash, OUTLEN := 64, FINALIZED := false, DCACHE := [], PSEL := .int, ERR := 0 } }

/-- A finalized SHA3-224 Hash Engine. -/
def finalized (cmd : List Byte) : State :=
  { fresh .identity .ones cmd with
    blk := { S := [(0, 0x61), (27, 0x62), (28, 0x63)], RATE := 144, CAP := 56, DSBYTE := 0x06, ACUR := 0, SCUR := 28,
             PHASE := .squeezing, MODE := .hash, OUTLEN := 28, FINALIZED := true, DCACHE := [(0, 0x61), (27, 0x62)],
             PSEL := .int, ERR := 0 } }

/-- X1 to X16: the external provider is bound and there is no instance. -/
def bound (e : Provider) (cmd : List Byte) : State :=
  { fresh .identity e cmd with blk := { Block.reset with PSEL := .ext } }

/-- The response bytes that a step writes. -/
def answer (s : State) : Option (List Byte) :=
  match step s with
  | .next t    => some (t.resp.drop s.resp.length)
  | .fault _   => none
  | .refused _ => none

/-- What `f` shows of the state a step leaves. -/
def after {α : Type} (f : State → α) (s : State) : Option α :=
  match step s with
  | .next t    => some (f t)
  | .fault _   => none
  | .refused _ => none

/-! ### Decoding: words from R77, bit by bit -/

-- R73: op 0001_0000, ds 0000_0110, cap 0100_0000, rate 1000_1000 (V1).
theorem test_decode_sinit : decode [0b00010000, 0b00000110, 0b01000000, 0b10001000] = .command (.sinit 136 64 0x06) [] := by
  decide

-- R72: op 0001_0001, n = 2; then two payload bytes and one byte of the next command (V2).
theorem test_decode_absorb : decode [0b00010001, 0, 0, 0b00000010, 0x61, 0x62, 0x22] = .command (.absorb [0x61, 0x62]) [0x22] := by
  decide

-- R72: op 0001_0010, n = 0x800001.
theorem test_decode_squeeze : decode [0b00010010, 0b10000000, 0, 0b00000001] = .command (.squeeze 0x800001) [] := by decide

-- R74: op 0010_0000, var 0000_0011, hlen 3 (H6).
theorem test_decode_hinit :
    decode [0b00100000, 0b00000011, 0, 0b00000011, 0x61, 0x62, 0x63] = .command (.hinit 3 [0x61, 0x62, 0x63]) [] := by
  decide

-- R72: op 0010_0001 (H7).
theorem test_decode_update :
    decode [0b00100001, 0, 0, 0b00000011, 0x61, 0x62, 0x63] = .command (.update [0x61, 0x62, 0x63]) [] := by decide

-- R75: op 0010_0010 and op 0010_0011, bits 23:0 zero.
theorem test_decode_digest : decode [0b00100010, 0, 0, 0] = .command .digest [] := by decide
theorem test_decode_hexdigest : decode [0b00100011, 0, 0, 0] = .command .hexdigest [] := by decide

-- R76: op 0011_0000, psel in bit 0.
theorem test_decode_rbind_ext : decode [0b00110000, 0, 0, 0b00000001] = .command (.rbind .ext) [] := by decide
theorem test_decode_rbind_int : decode [0b00110000, 0, 0, 0b00000000] = .command (.rbind .int) [] := by decide

-- R72: op 0011_0001, k = 12 (X13).
theorem test_decode_getrandbits : decode [0b00110001, 0, 0, 0b00001100] = .command (.getrandbits 12) [] := by decide

-- R75: op 0011_0010 and op 0100_0000.
theorem test_decode_random : decode [0b00110010, 0, 0, 0] = .command .random [] := by decide
theorem test_decode_stat : decode [0b01000000, 0, 0, 0] = .command .stat [] := by decide

-- R81 and E2 to E6, X18: undefined words; 0x13000005 has no payload.
theorem test_decode_undefined :
    decode [0, 0, 0, 0] = .undefinedWord 0 [] ∧ decode [0x40, 0, 0, 1] = .undefinedWord 0x40000001 [] ∧
    decode [0x22, 0, 0, 1] = .undefinedWord 0x22000001 [] ∧ decode [0x30, 0, 0, 2] = .undefinedWord 0x30000002 [] ∧
    decode [0x32, 0, 0, 1] = .undefinedWord 0x32000001 [] ∧ decode [0x13, 0, 0, 5, 0x11] = .undefinedWord 0x13000005 [0x11] := by
  decide

-- R90: truncated streams.
theorem test_decode_truncated :
    decode [] = .endOfStream ∧ decode [0x11, 0, 0] = .truncatedWord ∧
    decode [0x11, 0, 0, 2, 0x61] = .truncatedPayload 0x11000002 := by decide

-- The table's word of an ABSORB of three bytes, the payload zero.
theorem test_tableWord_absorb : decodeTableWord 32 0x11000003 = some (.absorb [0, 0, 0]) := by decide

/-! ### `Instr.wellFormed` refuses what no length field spells (R72, R74) -/

theorem test_wellFormed_absorb : (Instr.absorb (List.replicate (2 ^ 24) 0)).wellFormed = false := by
  simp only [Instr.wellFormed, List.length_replicate, Config.lenBits, lt_self_iff_false, decide_false]

theorem test_wellFormed_update : (Instr.update (List.replicate (2 ^ 24) 0)).wellFormed = false := by
  simp only [Instr.wellFormed, List.length_replicate, Config.lenBits, lt_self_iff_false, decide_false]

theorem test_wellFormed_hinit : (Instr.hinit 0 (List.replicate (2 ^ 16) 0)).wellFormed = false := by
  simp only [Instr.wellFormed, List.length_replicate, Config.hlenBits, lt_self_iff_false, decide_false]

theorem test_wellFormed_longest : (Instr.hinit 0 (List.replicate (2 ^ 16 - 1) 0)).wellFormed = true := by
  simp only [Instr.wellFormed, List.length_replicate, Config.hlenBits, decide_eq_true_eq]
  norm_num

/-! ### One step each (95_test_vectors.md) -/

-- V1: STAT after this SINIT shows `01 00 00 88 40 06 00 00 00`.
theorem test_sinit : after (fun t => statusRegisters t.blk) (fresh .identity .ones [0x10, 0x06, 0x40, 0x88]) =
    some [0x01, 0x00, 0x00, 0x88, 0x40, 0x06, 0x00, 0x00, 0x00] := by decide

-- V18: the reserved `ds` comes before the construction check.
theorem test_sinit_reserved : answer (fresh .identity .ones [0x10, 0x80, 0xC8, 0x00]) = some [0x03] := by decide

-- The concatenation law's example with `ID`: "abcde" leaves `04 62 63 64`; here "cde" after "ab".
theorem test_absorb : after (fun t => (t.blk.S.readBytes 0 4, t.blk.ACUR, t.permuteCalls))
    (absorbing .identity [0x11, 0, 0, 3, 0x63, 0x64, 0x65]) = some ([0x04, 0x62, 0x63, 0x64], 1, 1) := by decide

-- E7: no instance; the payload byte is consumed.
theorem test_absorb_wrong_mode : after (fun t => (t.resp, t.blk.ERR, t.cpos)) (fresh .identity .ones [0x11, 0, 0, 1, 0x78]) =
    some ([0x03], 3, 5) := by decide

-- V3: `00 61 62 06 80 61 62`, `SCUR = 2`, 2 permutes.
theorem test_squeeze : after (fun t => (t.resp, t.blk.SCUR, t.permuteCalls)) (absorbing .identity [0x12, 0, 0, 6]) =
    some ([0x00, 0x61, 0x62, 0x06, 0x80, 0x61, 0x62], 2, 2) := by decide

-- V7: `T` shows the place of each permutation: `00 63 08 83 04 09 85`.
theorem test_squeeze_visible : answer (absorbing .shiftAdd [0x12, 0, 0, 6]) =
    some [0x00, 0x63, 0x08, 0x83, 0x04, 0x09, 0x85] := by decide

-- H4: STAT after `hinit sha3_512`.
theorem test_hinit : after (fun t => statusRegisters t.blk) (fresh .identity .ones [0x20, 0x03, 0, 0]) =
    some [0x02, 0x00, 0x00, 0x48, 0x80, 0x06, 0x00, 0x00, 0x40] := by decide

-- H5: unsupported variant, payload discarded.
theorem test_hinit_unsupported : after (fun t => (t.resp, t.cpos)) (fresh .identity .ones [0x20, 0xFF, 0, 2, 0x7A, 0x7A]) =
    some ([0x01], 6) := by decide

-- R132 on the way to H6: "bc" after "a".
theorem test_update : after (fun t => (t.blk.S.readBytes 0 4, t.blk.ACUR)) (feeding .identity [0x21, 0, 0, 2, 0x62, 0x63]) =
    some ([0x61, 0x62, 0x63, 0x00], 3) := by decide

-- S3, H9: an empty UPDATE after the digest fails.
theorem test_update_finalized : answer (finalized [0x21, 0, 0, 0]) = some [0x02] := by decide

-- H6, for the message "a": `61 06` and sixty-two `00`, `SCUR = 64`.
theorem test_digest : after (fun t => (t.resp, t.blk.SCUR)) (feeding .identity [0x22, 0, 0, 0]) =
    some (0x00 :: 0x61 :: 0x06 :: List.replicate 62 0x00, 64) := by decide +kernel

-- E8.
theorem test_digest_wrong_mode : answer (fresh .identity .ones [0x22, 0, 0, 0]) = some [0x03] := by decide

-- S5: the text of the same digest.
theorem test_hexdigest : answer (feeding .identity [0x23, 0, 0, 0]) =
    some (0x00 :: 0x36 :: 0x31 :: 0x30 :: 0x36 :: List.replicate 124 0x30) := by decide +kernel

-- Section 5: STAT after `rbind ext` from reset.
theorem test_rbind : after (fun t => statusRegisters t.blk) (fresh .identity .ones [0x30, 0, 0, 1]) =
    some [0x00, 0x04, 0x00, 0x00, 0x00, 0x00, 0x00, 0x00, 0x00] := by decide

-- X13: `CNT(0xF0)`, 12 bits, two bytes taken.
theorem test_getrandbits : after (fun t => (t.resp, t.ext)) (bound (.counter 0xF0) [0x31, 0, 0, 0x0C]) =
    some ([0x00, 0x00, 0xF1], .counter 0xF2) := by decide

-- X21: the block's own sponge: `61 62` gives `0x162`.
theorem test_getrandbits_int : answer (absorbing .identity [0x31, 0, 0, 0x0C]) = some [0x00, 0x01, 0x62] := by decide

-- X15.
theorem test_random : answer (bound (.counter 0xF3) [0x32, 0, 0, 0]) =
    some [0x00, 0x3F, 0xE3, 0xF4, 0xF5, 0xF6, 0xF7, 0xF8, 0xF9] := by decide

-- X10.
theorem test_random_ones : answer (bound .ones [0x32, 0, 0, 0]) =
    some [0x00, 0x3F, 0xEF, 0xFF, 0xFF, 0xFF, 0xFF, 0xFF, 0xFF] := by decide

-- E1.
theorem test_stat : answer (fresh .identity .ones [0x40, 0, 0, 0]) = some [0x00, 0, 0, 0, 0, 0, 0, 0, 0, 0] := by decide

-- E6: an undefined word, and no payload is taken.
theorem test_undefined : after (fun t => (t.resp, t.cpos)) (fresh .identity .ones [0x13, 0, 0, 5, 1, 2, 3]) =
    some ([0x03], 4) := by decide

-- 95_test_vectors.md section 2: how `T(00 01 .. c7)` begins and ends.
theorem test_shiftAdd : ((shiftAdd ((List.range 200).map (BitVec.ofNat 8))).take 4,
    (shiftAdd ((List.range 200).map (BitVec.ofNat 8))).drop 196) = ([0x02, 0x04, 0x06, 0x08], [0x8A, 0x8C, 0x8E, 0xC8]) := by
  decide

-- 95_test_vectors.md section 2: how `KF(zeros)` begins.
theorem test_keccakF : (keccakF (List.replicate 200 0)).take 16 =
    [0xE7, 0xDD, 0xE1, 0x40, 0x79, 0x8F, 0x25, 0xF1, 0x8A, 0x47, 0xC0, 0x33, 0xF9, 0xCC, 0xD5, 0x84] := by
  decide +kernel

-- U9: `RC[i]` at the ends of the table's columns, and `ROT[2][3]`.
theorem test_keccak_tables : roundConstants.length = 24 ∧ roundConstants.getD 7 0 = 0x8000000000008009 ∧
    roundConstants.getD 8 0 = 0x8A ∧ roundConstants.getD 16 0 = 0x8000000000008002 ∧
    roundConstants.getD 23 0 = 0x8000000080008008 ∧ rot 2 3 = 15 := by decide

-- R156 at `m = 1` and `m = 2^52`.
theorem test_f64 : f64 1 = [0x3C, 0xA0, 0, 0, 0, 0, 0, 0] ∧ f64 (2 ^ 52) = [0x3F, 0xE0, 0, 0, 0, 0, 0, 0] := by decide

/-! ### The invariant at the helper states -/

/-- The invariant speaks of the block and of `HASH_DSBYTE` only. -/
theorem inv_congr {s t : State} (h : Inv s) (hb : t.blk = s.blk) (hp : t.par.hashDsbyte = s.par.hashDsbyte) : Inv t := by
  obtain ⟨h1, h2, h3, h4, h5, h6, h7, h8⟩ := h
  constructor <;> simpa only [hb, hp]

theorem inv_reset : Inv State.reset where
  sWf        := rfl
  dcacheWf   := rfl
  errLegal   := by decide
  hashDsbyte := by decide
  sponge     := fun h => absurd rfl h
  none       := fun _ => rfl
  raw        := fun h => by cases h
  hash       := fun h => by cases h

theorem inv_fresh (p : PermuteSel) (e : Provider) (cmd : List Byte) : Inv (fresh p e cmd) := inv_congr inv_reset rfl rfl

theorem inv_bound (e : Provider) (cmd : List Byte) : Inv (bound e cmd) where
  sWf        := rfl
  dcacheWf   := rfl
  errLegal   := inv_reset.errLegal
  hashDsbyte := inv_reset.hashDsbyte
  sponge     := fun h => absurd rfl h
  none       := fun _ => rfl
  raw        := fun h => by cases h
  hash       := fun h => by cases h

/-- Any RAW state of rate 4 with a canonical store, its cursor of the other phase at 0. -/
theorem inv_raw {s : State} (hp : s.par.hashDsbyte = 0x06) (hS : s.blk.S.wf 200 = true) (hd : s.blk.DCACHE = [])
    (he : s.blk.ERR = 0) (hr : s.blk.RATE = 4) (hc : s.blk.CAP = 196) (hb : s.blk.DSBYTE = 0x06)
    (ha : s.blk.ACUR.toNat < 4) (hs : s.blk.SCUR.toNat < 4) (h1 : s.blk.PHASE = .squeezing → s.blk.ACUR = 0)
    (h2 : s.blk.PHASE = .absorbing → s.blk.SCUR = 0) (hm : s.blk.MODE = .raw) (ho : s.blk.OUTLEN = 0)
    (hf : s.blk.FINALIZED = false) : Inv s where
  sWf        := hS
  dcacheWf   := by rw [hd]; rfl
  errLegal   := by rw [he]; decide
  hashDsbyte := by rw [hp]; decide
  sponge     := fun _ => ⟨by simp [hr], by simp [hr], by simp [hr, hc], by simpa [hr] using ha, by simpa [hr] using hs,
                  h1, h2, by rw [hb]; decide⟩
  none       := fun h => by simp [hm] at h
  raw        := fun _ => ⟨hf, ho, hd⟩
  hash       := fun h => by simp [hm] at h

theorem inv_absorbing (p : PermuteSel) (cmd : List Byte) : Inv (absorbing p cmd) :=
  inv_congr (s := absorbing .identity [])
    (inv_raw rfl rfl rfl rfl rfl rfl rfl (by decide) (by decide) (by decide) (by decide) rfl rfl rfl) rfl rfl

theorem inv_squeezing (p : PermuteSel) (cmd : List Byte) : Inv (squeezing p cmd) :=
  inv_congr (s := squeezing .identity [])
    (inv_raw rfl rfl rfl rfl rfl rfl rfl (by decide) (by decide) (by decide) (by decide) rfl rfl rfl) rfl rfl

theorem inv_feeding (p : PermuteSel) (cmd : List Byte) : Inv (feeding p cmd) := by
  refine inv_congr (s := feeding .identity []) ⟨rfl, rfl, by decide, by decide, fun _ => ?_, ?_, ?_, fun _ => ?_⟩ rfl rfl
  · exact ⟨by decide, by decide, by decide, by decide, by decide, by decide, by decide, by decide⟩
  · exact fun h => by cases h
  · exact fun h => by cases h
  · exact ⟨⟨⟨72, 128, 64⟩, by decide, rfl, rfl, rfl⟩, rfl, by decide, by decide, (fun h => by cases h), by decide⟩

theorem inv_finalized (cmd : List Byte) : Inv (finalized cmd) := by
  refine inv_congr (s := finalized []) ⟨rfl, rfl, by decide, by decide, fun _ => ?_, ?_, ?_, fun _ => ?_⟩ rfl rfl
  · exact ⟨by decide, by decide, by decide, by decide, by decide, by decide, by decide, by decide⟩
  · exact fun h => by cases h
  · exact fun h => by cases h
  · refine ⟨⟨⟨144, 56, 28⟩, by decide, rfl, rfl, rfl⟩, rfl, by decide, by decide, fun _ j => ?_, by decide⟩
    show Memory.read [(0, 0x61), (27, 0x62)] j = if j < 28 then Memory.read [(0, 0x61), (27, 0x62), (28, 0x63)] j else 0
    simp only [Memory.read, Memory.unlisted]
    split_ifs <;> first | rfl | omega

/-- R90: the four bytes of STAT are a program. -/
theorem stat_is_a_program : WellFormedStream [0x40, 0, 0, 0] := .more 0x40000000 [] [] (by decide) .done

/-! ### Witnesses: states and operands that meet each statement's hypotheses -/

theorem witness_DecodeOfEncode : (Instr.hinit 3 [0x61]).wellFormed = true := by decide

theorem witness_EncodeOfDecode : decode [0x11, 0, 0, 1, 0x78, 0x40] = .command (.absorb [0x78]) [0x40] := by decide

theorem witness_OpcodeRowsAreDisjoint :
    (⟨.rbind, 0x30000000, 0xFFFFFFFE⟩ : OpcodeRow) ∈ opcodeTable ∧
    (0x30000001 : Word) &&& 0xFFFFFFFE = 0x30000000 := by decide

/-- A word of each of R81's three kinds. -/
theorem witness_UndefinedWordsFail :
    (matchRow 0x13000005 = none ∧ matchRow 0x22000001 = none ∧ matchRow 0x30800000 = none ∧ matchRow 0xFFFFFFFF = none) ∧
    (fresh .identity .ones [0x13, 0, 0, 5]).resetPending = false ∧
    (fresh .identity .ones [0x13, 0, 0, 5]).cmd = wordBytes 0x13000005 ++ [] := by decide

theorem witness_StepRunsTheDecodedCommand :
    (fresh .identity .ones [0x40, 0, 0, 0, 0x22]).resetPending = false ∧
    decode (fresh .identity .ones [0x40, 0, 0, 0, 0x22]).cmd = .command .stat [0x22] := by decide

theorem witness_ResetEventClearsTheBlock : ({ squeezing .identity [] with resetPending := true } : State).resetPending = true := rfl

theorem witness_InvariantKeptByEveryStep :
    Inv (absorbing .identity [0x12, 0, 0, 6]) ∧ ∃ t, step (absorbing .identity [0x12, 0, 0, 6]) = .next t :=
  ⟨inv_absorbing _ _, _, rfl⟩

theorem witness_NoFaultUnderTheInvariant : Inv (finalized [0x11, 0]) ∧ step (finalized [0x11, 0]) = .refused .truncatedWord :=
  ⟨inv_finalized _, rfl⟩

theorem witness_ProgramsNeverGetStuck :
    Runnable (absorbing .identity [0x40, 0, 0, 0]) ∧ (absorbing .identity [0x40, 0, 0, 0]).cmd ≠ [] ∧
    Runnable ({ fresh .identity .ones [] with resetPending := true } : State) :=
  ⟨⟨inv_absorbing _ _, stat_is_a_program⟩, by decide,
    inv_congr inv_reset rfl rfl, .done⟩

theorem witness_ProgramsRunToTheirEnd :
    Runnable (absorbing .identity [0x40, 0, 0, 0]) ∧ (absorbing .identity [0x40, 0, 0, 0]).resetPending = false ∧
    Runnable State.reset := ⟨⟨inv_absorbing _ _, stat_is_a_program⟩, rfl, inv_reset, .done⟩

/-- One and three bytes of a word; a payload one byte short. -/
theorem witness_TruncatedStreamsAreRefused :
    (fresh .identity .ones [0x40]).cmd.length = 1 ∧ (fresh .identity .ones [0x40, 0, 0]).cmd.length = 3 ∧
    (fresh .identity .ones [0x11, 0, 0, 2, 0x61]).cmd = wordBytes 0x11000002 ++ [0x61] ∧
    ([0x61] : List Byte).length < paylen 0x11000002 := by decide

theorem witness_OneResponsePerCommand :
    (fresh .identity .ones [0x10, 0x06, 0xC8, 0x00]).resetPending = false ∧
    ∃ t, step (fresh .identity .ones [0x10, 0x06, 0xC8, 0x00]) = .next t := ⟨rfl, _, rfl⟩

theorem witness_StepTakesTheWholeCommand :
    Inv (fresh .identity .ones [0x11, 0, 0, 1, 0x78, 0x40]) ∧
    (fresh .identity .ones [0x11, 0, 0, 1, 0x78, 0x40]).cmd = wordBytes 0x11000001 ++ [0x78] ++ [0x40] ∧
    ([0x78] : List Byte).length = paylen 0x11000001 := ⟨inv_fresh _ _ _, by decide, by decide⟩

/-- For every command, a state that meets the invariant in which no rule makes it fail. -/
theorem witness_SuccessfulCommandsComplete :
    Inv (fresh .identity .ones []) ∧ Inv (absorbing .identity []) ∧ Inv (squeezing .identity []) ∧
    Inv (feeding .identity []) ∧ Inv (finalized []) ∧ Inv (bound .ones []) ∧
    errorOf (.sinit 1 199 0x7F) (fresh .identity .ones []).blk = none ∧
    errorOf (.sinit 199 1 0x01) (fresh .identity .ones []).blk = none ∧
    errorOf (.absorb [0x78]) (absorbing .identity []).blk = none ∧
    errorOf (.squeeze 0) (absorbing .identity []).blk = none ∧
    errorOf (.squeeze 0xFFFFFF) (squeezing .identity []).blk = none ∧
    errorOf (.hinit 0 []) (fresh .identity .ones []).blk = none ∧
    errorOf (.hinit 3 [0x78]) (fresh .identity .ones []).blk = none ∧
    errorOf (.update []) (feeding .identity []).blk = none ∧
    errorOf .digest (feeding .identity []).blk = none ∧ errorOf .hexdigest (finalized []).blk = none ∧
    errorOf (.rbind .ext) (finalized []).blk = none ∧
    errorOf (.getrandbits 1) (bound .ones []).blk = none ∧
    errorOf (.getrandbits 0xFFFFFF) (absorbing .identity []).blk = none ∧
    errorOf .random (bound .ones []).blk = none ∧ errorOf .random (squeezing .identity []).blk = none ∧
    errorOf .stat (fresh .identity .ones []).blk = none :=
  ⟨inv_fresh _ _ _, inv_absorbing _ _, inv_squeezing _ _, inv_feeding _ _, inv_finalized _, inv_bound _ _, by decide⟩

/-- For every command that can fail and every error it can have. -/
theorem witness_FailingCommandsWriteOnlyErr :
    errorOf (.sinit 0 200 0x80) (fresh .identity .ones []).blk = some .illegalCommand ∧
    errorOf (.sinit 0 200 0x06) (fresh .identity .ones []).blk = some .configurationError ∧
    errorOf (.sinit 100 99 0x06) (fresh .identity .ones []).blk = some .configurationError ∧
    errorOf (.absorb []) (fresh .identity .ones []).blk = some .illegalCommand ∧
    errorOf (.absorb []) (squeezing .identity []).blk = some .stateError ∧
    errorOf (.squeeze 0) (feeding .identity []).blk = some .illegalCommand ∧
    errorOf (.hinit 4 []) (fresh .identity .ones []).blk = some .configurationError ∧
    errorOf (.update []) (absorbing .identity []).blk = some .illegalCommand ∧
    errorOf (.update []) (finalized []).blk = some .stateError ∧
    errorOf .digest (absorbing .identity []).blk = some .illegalCommand ∧
    errorOf .hexdigest (fresh .identity .ones []).blk = some .illegalCommand ∧
    errorOf (.getrandbits 0) (bound .ones []).blk = some .illegalCommand ∧
    errorOf (.getrandbits 1) (feeding .identity []).blk = some .illegalCommand ∧
    errorOf .random (fresh .identity .ones []).blk = some .illegalCommand ∧
    decode (fresh .identity .ones [0x40, 0, 0, 1, 0x22]).cmd = .undefinedWord 0x40000001 [0x22] := by decide

theorem witness_ErrorsOfEachCommand :
    (∃ t, exec (.hinit 4 []) (fresh .identity .ones []) = .next t ∧ t.resp = [] ++ [0x01]) ∧
    (∃ t, exec (.update []) (finalized []) = .next t ∧ t.resp = [] ++ [0x02]) := ⟨⟨_, rfl, rfl⟩, ⟨_, rfl, rfl⟩⟩

theorem witness_ErrIsTheLastFailure :
    (∃ t, exec .stat (finalized []) = .next t) ∧ ∃ t, exec (.absorb []) (finalized []) = .next t := ⟨⟨_, rfl⟩, ⟨_, rfl⟩⟩

theorem witness_ErrInfluencesOnlyStat : Instr.digest ≠ .stat ∧ ∃ t, exec .digest (feeding .identity []) = .next t :=
  ⟨by decide, _, rfl⟩

/-- A command that is no construction; a construction that fails; a draw from the block's own sponge. -/
theorem witness_WhatCommandsLeaveAlone :
    (∃ t, exec (.squeeze 3) (absorbing .identity []) = .next t) ∧
    errorOf (.sinit 200 0 0x06) (finalized []).blk ≠ none ∧ (∃ t, exec (.sinit 200 0 0x06) (finalized []) = .next t) ∧
    (absorbing .identity []).blk.PSEL = .int ∧ (∃ t, exec (.getrandbits 9) (absorbing .identity []) = .next t) :=
  ⟨⟨_, rfl⟩, by decide, ⟨_, rfl⟩, rfl, ⟨_, rfl⟩⟩

theorem witness_FinalizationIsIrreversible :
    (squeezing .identity []).blk.PHASE = .squeezing ∧ (∃ t, exec (.squeeze 3) (squeezing .identity []) = .next t) ∧
    (finalized []).blk.FINALIZED = true ∧ ∃ t, exec .hexdigest (finalized []) = .next t := ⟨rfl, ⟨_, rfl⟩, rfl, ⟨_, rfl⟩⟩

/-- The ends of each clause: `ds` 0x00, 0x80, 0x01 and 0x7F; `rate` and `cap` 0; sums 199 and 201; rates 1 and 199. -/
theorem witness_SinitConstructsASponge :
    ((0x00 : Byte) = 0x00 ∧ 0x80 ≤ (0x80 : Byte).toNat) ∧
    ((0x01 : Byte) ≠ 0x00 ∧ (0x7F : Byte).toNat < 0x80) ∧
    ((100 : Byte).toNat + (99 : Byte).toNat ≠ 200 ∧ (100 : Byte).toNat + (101 : Byte).toNat ≠ 200) ∧
    ((1 : Byte) ≠ 0 ∧ (199 : Byte) ≠ 0 ∧ (1 : Byte).toNat + (199 : Byte).toNat = 200) := by decide

/-- Each failing mode, and data that ends one byte before the block's end. -/
theorem witness_AbsorbFeedsTheSponge :
    (fresh .identity .ones []).blk.MODE ≠ .raw ∧ (feeding .identity []).blk.MODE ≠ .raw ∧
    ((squeezing .identity []).blk.MODE = .raw ∧ (squeezing .identity []).blk.PHASE = .squeezing) ∧
    (Inv (absorbing .identity []) ∧ (absorbing .identity []).blk.MODE = .raw ∧
      (absorbing .identity []).blk.PHASE = .absorbing ∧
      (absorbing .identity []).blk.ACUR.toNat + ([0x78] : List Byte).length < (absorbing .identity []).blk.RATE.toNat) :=
  ⟨by decide, by decide, ⟨rfl, rfl⟩, inv_absorbing _ _, rfl, rfl, by decide⟩

/-- The absorb cursor at the last byte of the block. -/
def atBoundary : State :=
  { absorbing .identity [] with blk := { (absorbing .identity []).blk with ACUR := 3 } }

theorem inv_atBoundary : Inv atBoundary :=
  inv_raw rfl rfl rfl rfl rfl rfl rfl (by decide) (by decide) (by decide) (by decide) rfl rfl rfl

theorem witness_AbsorbPermutesAtTheBoundary :
    Inv atBoundary ∧ atBoundary.blk.MODE = .raw ∧ atBoundary.blk.PHASE = .absorbing ∧
    atBoundary.blk.ACUR.toNat + 1 = atBoundary.blk.RATE.toNat := ⟨inv_atBoundary, rfl, rfl, by decide⟩

theorem witness_AbsorbConcatenates :
    Inv (absorbing .identity []) ∧ (absorbing .identity []).blk.MODE = .raw ∧
    (absorbing .identity []).blk.PHASE = .absorbing := ⟨inv_absorbing _ _, rfl, rfl⟩

/-- Pads of one byte, of two and of 71. -/
theorem witness_PaddingIsAnAbsorbedPad :
    (Inv atBoundary ∧ atBoundary.blk.MODE ≠ .none ∧ atBoundary.blk.PHASE = .absorbing) ∧
    (Inv (absorbing .identity []) ∧ (absorbing .identity []).blk.MODE ≠ .none ∧
      (absorbing .identity []).blk.PHASE = .absorbing) ∧
    (Inv (feeding .identity []) ∧ (feeding .identity []).blk.MODE ≠ .none ∧ (feeding .identity []).blk.PHASE = .absorbing) :=
  ⟨⟨inv_atBoundary, by decide, rfl⟩, ⟨inv_absorbing _ _, by decide, rfl⟩, ⟨inv_feeding _ _, by decide, rfl⟩⟩

theorem witness_SqueezeIsTheChunkLoop :
    (Inv (squeezing .identity []) ∧ (squeezing .identity []).blk.MODE ≠ .none) ∧
    (Inv (feeding .identity []) ∧ (feeding .identity []).blk.MODE ≠ .none) :=
  ⟨⟨inv_squeezing _ _, by decide⟩, inv_feeding _ _, by decide⟩

/-- A wrong mode; an absorbing and a squeezing instance; a request that ends one byte before the block's end. -/
theorem witness_SqueezeReturnsTheNextBytes :
    (finalized []).blk.MODE ≠ .raw ∧ (Inv (absorbing .identity []) ∧ (absorbing .identity []).blk.MODE = .raw) ∧
    (Inv (squeezing .identity []) ∧ (squeezing .identity []).blk.MODE = .raw ∧
      (squeezing .identity []).blk.PHASE = .squeezing ∧
      (squeezing .identity []).blk.SCUR.toNat + (2 : BitVec 24).toNat < (squeezing .identity []).blk.RATE.toNat) :=
  ⟨by decide, ⟨inv_absorbing _ _, rfl⟩, inv_squeezing _ _, rfl, rfl, by decide⟩

theorem witness_SqueezesContinueOneStream :
    Inv (absorbing .identity []) ∧ (absorbing .identity []).blk.MODE = .raw ∧
    (0xFFFFFF : BitVec 24).toNat = (0xFFFFF0 : BitVec 24).toNat + (0xF : BitVec 24).toNat :=
  ⟨inv_absorbing _ _, rfl, by decide⟩

theorem witness_RawSpongeIsTheSpongeFunction :
    (0x7F : Byte) ≠ 0x00 ∧ (0x7F : Byte).toNat < 0x80 ∧ (1 : Byte) ≠ 0 ∧ (199 : Byte) ≠ 0 ∧
    (1 : Byte).toNat + (199 : Byte).toNat = 200 := by decide

theorem witness_PermutationCalls :
    (0x01 : Byte) ≠ 0x00 ∧ (0x01 : Byte).toNat < 0x80 ∧ (199 : Byte) ≠ 0 ∧ (1 : Byte) ≠ 0 ∧
    (199 : Byte).toNat + (1 : Byte).toNat = 200 ∧ ([0, 3] : List (BitVec 24)) ≠ [] := by decide

/-- Another content of the capacity bytes 4 to 199 of `squeezing`. -/
def otherCapacity : State :=
  { squeezing .identity [] with
    blk := { (squeezing .identity []).blk with S := [(0, 0x61), (1, 0x62), (3, 0x80), (4, 0xFF)] } }

theorem witness_CapacityIsNeverExposed :
    (Inv (squeezing .identity []) ∧ Inv otherCapacity ∧ (squeezing .identity []).blk.MODE = .raw ∧
      (squeezing .identity []).blk.PHASE = .squeezing ∧
      (∀ a, a < (squeezing .identity []).blk.RATE.toNat → otherCapacity.blk.S.read a = (squeezing .identity []).blk.S.read a) ∧
      (squeezing .identity []).blk.SCUR.toNat + (2 : BitVec 24).toNat < (squeezing .identity []).blk.RATE.toNat ∧
      ∃ t, exec (.squeeze 2) (squeezing .identity []) = .next t) ∧
    (Inv (absorbing .identity []) ∧
      (absorbing .identity []).blk.ACUR.toNat + ([0x78] : List Byte).length < (absorbing .identity []).blk.RATE.toNat ∧
      ∃ t, exec (.absorb [0x78]) (absorbing .identity []) = .next t) :=
  ⟨⟨inv_squeezing _ _,
    inv_raw rfl rfl rfl rfl rfl rfl rfl (by decide) (by decide) (by decide) (by decide) rfl rfl rfl,
    rfl, rfl, by decide, by decide, _, rfl⟩, inv_absorbing _ _, by decide, _, rfl⟩

/-- The first unsupported variant, and the last supported one. -/
theorem witness_HinitConstructsAHashEngine :
    3 < (4 : Byte).toNat ∧
    ((3 : Byte), (72 : Byte), (128 : Byte), (64 : Byte)) ∈ ([(0, 144, 56, 28), (1, 136, 64, 32), (2, 104, 96, 48),
      (3, 72, 128, 64)] : List (Byte × Byte × Byte × Byte)) := by decide

theorem witness_UpdateFeedsTheHashEngine :
    (absorbing .identity []).blk.MODE ≠ .hash ∧
    ((finalized []).blk.MODE = .hash ∧ (finalized []).blk.FINALIZED = true) ∧
    (Inv (feeding .identity []) ∧ (feeding .identity []).blk.MODE = .hash ∧ (feeding .identity []).blk.FINALIZED = false ∧
      (feeding .identity []).blk.ACUR.toNat + (List.replicate 70 (0x78 : Byte)).length < (feeding .identity []).blk.RATE.toNat) :=
  ⟨by decide, ⟨rfl, rfl⟩, inv_feeding _ _, rfl, rfl, by decide⟩

theorem witness_DigestFinalizesAndCaches :
    (absorbing .identity []).blk.MODE ≠ .hash ∧
    (Inv (feeding .identity []) ∧ (feeding .identity []).blk.MODE = .hash ∧ (feeding .identity []).blk.FINALIZED = false) ∧
    (Inv (finalized []) ∧ (finalized []).blk.MODE = .hash ∧ (finalized []).blk.FINALIZED = true) :=
  ⟨by decide, ⟨inv_feeding _ _, rfl, rfl⟩, inv_finalized _, rfl, rfl⟩

theorem witness_DigestsStayTheSame :
    Inv (finalized []) ∧ (finalized []).blk.MODE = .hash ∧ (finalized []).blk.FINALIZED = true ∧
    (∀ i ∈ [Instr.digest, .update [0x78], .stat, .hexdigest],
      i = .digest ∨ i = .hexdigest ∨ i = .stat ∨ ∃ data, i = .update data) ∧
    ∀ i ∈ [Instr.hexdigest, .digest], i = .digest ∨ i = .hexdigest :=
  ⟨inv_finalized _, rfl, rfl, by simp, by simp⟩

theorem witness_HexdigestIsTheTextOfDigest :
    (absorbing .identity []).blk.MODE ≠ .hash ∧ (Inv (feeding .identity []) ∧ (feeding .identity []).blk.MODE = .hash) ∧
    (Inv (finalized []) ∧ (finalized []).blk.MODE = .hash) :=
  ⟨by decide, ⟨inv_feeding _ _, rfl⟩, inv_finalized _, rfl⟩

theorem witness_HexTextDigits : 1 < ([0x3A, 0xF0] : List Byte).length := by decide

theorem witness_UpdatesConcatenate : (3 : Byte).toNat ≤ 3 ∧ (0 : Byte).toNat ≤ 3 := by decide

theorem witness_DigestIsTheSpongeFunction :
    dsReserved (fresh .identity .ones []).par.hashDsbyte = false ∧
    variantTable[(3 : Byte).toNat]? = some ⟨72, 128, 64⟩ ∧ variantTable[(0 : Byte).toNat]? = some ⟨144, 56, 28⟩ := by decide

theorem witness_FinalizedHashEngineIsReadOnly :
    (finalized []).blk.MODE = .hash ∧ (finalized []).blk.FINALIZED = true ∧
    (∃ t, exec .digest (finalized []) = .next t) ∧
    errorOf (.hinit 4 []) (finalized []).blk ≠ none ∧ ∃ t, exec (.hinit 4 []) (finalized []) = .next t :=
  ⟨rfl, rfl, ⟨_, rfl⟩, by decide, _, rfl⟩

/-- `k` of 0, 1 and `2^24 - 1`; no usable provider; the block's own sponge and the external provider. -/
theorem witness_GetrandbitsDrawsBits :
    ((0 : BitVec 24) = 0 ∧ (1 : BitVec 24) ≠ 0 ∧ (0xFFFFFF : BitVec 24) ≠ 0) ∧
    ((feeding .identity []).blk.PSEL = .int ∧ (feeding .identity []).blk.MODE ≠ .raw) ∧
    (Inv (absorbing .identity []) ∧ (absorbing .identity []).blk.PSEL = .int ∧ (absorbing .identity []).blk.MODE = .raw) ∧
    (Inv (bound .ones []) ∧ (bound .ones []).blk.PSEL = .ext) :=
  ⟨by decide, ⟨rfl, by decide⟩, ⟨inv_absorbing _ _, rfl, rfl⟩, inv_bound _ _, rfl⟩

theorem witness_RandomDrawsAFraction :
    ((feeding .identity []).blk.PSEL = .int ∧ (feeding .identity []).blk.MODE ≠ .raw) ∧
    (Inv (squeezing .identity []) ∧ (squeezing .identity []).blk.PSEL = .int ∧ (squeezing .identity []).blk.MODE = .raw) ∧
    (Inv (bound .ones []) ∧ (bound .ones []).blk.PSEL = .ext) :=
  ⟨⟨rfl, by decide⟩, ⟨inv_squeezing _ _, rfl, rfl⟩, inv_bound _ _, rfl⟩

theorem witness_FloatIsExact : (0 < 1 ∧ 1 < 2 ^ 53) ∧ (0 < 2 ^ 53 - 1 ∧ 2 ^ 53 - 1 < 2 ^ 53) := by decide

theorem witness_ConstantProviders :
    (0xFFFFFF : BitVec 24) ≠ 0 ∧ ((bound .ones []).blk.PSEL = .ext ∧ (bound .ones []).ext = .ones) ∧
    ((bound .zeros []).blk.PSEL = .ext ∧ (bound .zeros []).ext = .zeros) := by decide

end Sys2Proof.Tests
end

section
/-! PROOFS. What a command can do, once for all commands: it fails and raises the error of the spec's tables, or no
table makes it fail and it performs its one effect. -/

namespace Sys2Proof.Machine

/-! ### Commands that share a meaning -/

/-- DIGEST and HEXDIGEST, with the text each makes of the digest (R133, R134). -/
inductive DigestText : Instr → (List Byte → List Byte) → Prop where
  | digest    : DigestText .digest (fun d => d)
  | hexdigest : DigestText .hexdigest hex

/-- GETRANDBITS with a legal `k` and RANDOM, with the bytes each draws and what it makes of their value (R154, R155). -/
inductive Draws : Instr → Nat → (Nat → List Byte) → Prop where
  | getrandbits {k : BitVec 24} (hk : k ≠ 0) :
      Draws (.getrandbits k) (ceilDiv k.toNat 8) (fun v => beBytes (lowBits v k.toNat) (ceilDiv k.toNat 8))
  | random : Draws .random 7 (fun v => f64 (lowBits v 53))

theorem exec_digestText {i : Instr} {text : List Byte → List Byte} (h : DigestText i text) (s : State) :
    exec i s = reportDigest text s := by
  cases h <;> rfl

theorem exec_draws {i : Instr} {n : Nat} {f : Nat → List Byte} (h : Draws i n f) (s : State) :
    exec i s = draw n f s := by
  cases h with
  | getrandbits hk => exact if_neg hk
  | random => rfl

/-! ### The error of each command (R82 to R85) -/

theorem errorOf_sinit (rate cap ds : Byte) (b : Block) :
    errorOf (.sinit rate cap ds) b =
      if dsReserved ds then some .illegalCommand
      else if rateCapOk rate cap then none else some .configurationError := by
  have hok : rateCapOk rate cap = true ↔
      ¬(rate.toNat < 1 ∨ cap.toNat < 1 ∨ rate.toNat + cap.toNat ≠ 200) := by
    simp only [rateCapOk, Bool.and_eq_true, decide_eq_true_eq]
    omega
  show (if dsReserved ds = true then _ else if true = true then ownError (.sinit rate cap ds) b else _) = _
  simp only [ownError, hok, if_true, ite_not]

theorem errorOf_hinit (var : Byte) (data : List Byte) (b : Block) :
    errorOf (.hinit var data) b = if variantRow var = none then some .configurationError else none := by
  have hrow : variantRow var = none ↔ 3 < var.toNat := List.getElem?_eq_none_iff
  simp [errorOf, reservedField, availableIn, ownError, hrow]

theorem errorOf_absorb (data : List Byte) (b : Block) :
    errorOf (.absorb data) b =
      if b.MODE = .raw then (if b.PHASE = .absorbing then none else some .stateError) else some .illegalCommand := by
  cases hm : b.MODE <;> cases hp : b.PHASE <;> simp [errorOf, reservedField, availableIn, ownError, hm, hp]

theorem errorOf_squeeze (n : BitVec 24) (b : Block) :
    errorOf (.squeeze n) b = if b.MODE = .raw then none else some .illegalCommand := by
  cases hm : b.MODE <;> simp [errorOf, reservedField, availableIn, ownError, hm]

theorem errorOf_update (data : List Byte) (b : Block) :
    errorOf (.update data) b =
      if b.MODE = .hash then (if b.FINALIZED then some .stateError else none) else some .illegalCommand := by
  cases hm : b.MODE <;> simp [errorOf, reservedField, availableIn, ownError, hm]

theorem errorOf_digestText {i : Instr} {text : List Byte → List Byte} (h : DigestText i text) (b : Block) :
    errorOf i b = if b.MODE = .hash then none else some .illegalCommand := by
  cases h <;> cases hm : b.MODE <;> simp [errorOf, reservedField, availableIn, ownError, hm]

theorem errorOf_draws {i : Instr} {n : Nat} {f : Nat → List Byte} (h : Draws i n f) (b : Block) :
    errorOf i b = if b.PSEL = .ext ∨ b.MODE = .raw then none else some .illegalCommand := by
  have hres : reservedField i = false := by
    cases h with
    | getrandbits hk => exact decide_eq_false hk
    | random => rfl
  cases h <;> cases hm : b.MODE <;> cases hp : b.PSEL <;> simp [errorOf, hres, availableIn, ownError, hm, hp]

/-! ### What a command performs when nothing makes it fail -/

/-- `Performs i s out u`: in the state `s` nothing makes `i` fail, its output is `out`, and it leads to `u` before the
response is written. -/
inductive Performs : Instr → State → List Byte → State → Prop where
  /-- R101. -/
  | sinit {rate cap ds : Byte} {s : State} (hds : dsReserved ds = false) (hrc : rateCapOk rate cap = true) :
      Performs (.sinit rate cap ds) s [] (construct .raw rate cap ds 0 s)
  /-- R131. -/
  | hinit {var : Byte} {data : List Byte} {s : State} {v : VariantRow} (hv : variantRow var = some v) :
      Performs (.hinit var data) s [] (absorb data (construct .hash v.rate v.cap s.par.hashDsbyte v.outlen s))
  /-- R103. -/
  | absorb {data : List Byte} {s : State} (hm : s.blk.MODE = .raw) (hp : s.blk.PHASE = .absorbing)
      (hr : spongeReady s.blk = true) : Performs (.absorb data) s [] (absorb data s)
  /-- R107. -/
  | squeeze {n : BitVec 24} {s : State} (hm : s.blk.MODE = .raw) (hr : spongeReady s.blk = true) :
      Performs (.squeeze n) s (squeeze n.toNat s).1 (squeeze n.toNat s).2
  /-- R132. -/
  | update {data : List Byte} {s : State} (hm : s.blk.MODE = .hash) (hf : s.blk.FINALIZED = false)
      (hr : spongeReady s.blk = true) : Performs (.update data) s [] (Machine.absorb data s)
  /-- R133: the first digest finalizes the engine. -/
  | finalize {i : Instr} {text : List Byte → List Byte} {s : State} (hi : DigestText i text)
      (hm : s.blk.MODE = .hash) (hd : digestReady s.blk = true) (hf : s.blk.FINALIZED = false)
      (hr : spongeReady s.blk = true) :
      Performs i s (text (digestBytes (finalizeDigest s).blk)) (finalizeDigest s)
  /-- R133: a later digest shows the cached one. -/
  | report {i : Instr} {text : List Byte → List Byte} {s : State} (hi : DigestText i text)
      (hm : s.blk.MODE = .hash) (hd : digestReady s.blk = true) (hf : s.blk.FINALIZED = true) :
      Performs i s (text (digestBytes s.blk)) s
  /-- R151. -/
  | rbind {p : ProviderSel} {s : State} : Performs (.rbind p) s [] { s with blk := { s.blk with PSEL := p } }
  /-- R152: a draw from the block's own Sponge. -/
  | drawInt {i : Instr} {n : Nat} {f : Nat → List Byte} {s : State} (hi : Draws i n f) (hs : s.blk.PSEL = .int)
      (hm : s.blk.MODE = .raw) (hr : spongeReady s.blk = true) :
      Performs i s (f (be (Machine.squeeze n s).1)) (Machine.squeeze n s).2
  /-- R152, R153: a draw from the external provider. -/
  | drawExt {i : Instr} {n : Nat} {f : Nat → List Byte} {s : State} (hi : Draws i n f) (hs : s.blk.PSEL = .ext) :
      Performs i s (f (be (extSqueeze n s).1)) (extSqueeze n s).2
  /-- R170. -/
  | stat {s : State} : Performs .stat s (statusRegisters s.blk) s

/-! ### `exec` from the tables and `Performs` -/

theorem exec_of_errorOf_digestText {i : Instr} {text : List Byte → List Byte} (hi : DigestText i text) {s : State}
    {e : Error} (h : errorOf i s.blk = some e) : exec i s = .next (raise e s) := by
  rw [errorOf_digestText hi] at h
  split_ifs at h with hm
  cases h
  simp [exec_digestText hi, reportDigest, hm]

theorem exec_of_errorOf_draws {i : Instr} {n : Nat} {f : Nat → List Byte} (hi : Draws i n f) {s : State} {e : Error}
    (h : errorOf i s.blk = some e) : exec i s = .next (raise e s) := by
  rw [errorOf_draws hi] at h
  split_ifs at h with hav
  cases h
  simp [exec_draws hi, draw, hav]

/-- R186: a command of which the tables name an error raises it. -/
theorem exec_of_errorOf {i : Instr} {s : State} {e : Error} (h : errorOf i s.blk = some e) :
    exec i s = .next (raise e s) := by
  cases i with
  | sinit rate cap ds =>
    rw [errorOf_sinit] at h
    split_ifs at h with hds hrc <;> cases h
    · simp [exec, execSinit, hds]
    · simp [exec, execSinit, hds, hrc]
  | absorb data =>
    rw [errorOf_absorb] at h
    split_ifs at h with hm hp <;> cases h
    · simp [exec, execAbsorb, hm, hp]
    · simp [exec, execAbsorb, hm]
  | squeeze n =>
    rw [errorOf_squeeze] at h
    split_ifs at h with hm
    cases h
    simp [exec, execSqueeze, hm]
  | hinit var data =>
    rw [errorOf_hinit] at h
    split_ifs at h with hv
    cases h
    simp [exec, execHinit, hv]
  | update data =>
    rw [errorOf_update] at h
    split_ifs at h with hm hf <;> cases h
    · simp [exec, execUpdate, hm, hf]
    · simp [exec, execUpdate, hm]
  | digest => exact exec_of_errorOf_digestText .digest h
  | hexdigest => exact exec_of_errorOf_digestText .hexdigest h
  | rbind p => cases h
  | getrandbits k =>
    by_cases hk : k = 0
    · subst hk
      cases h
      rfl
    · exact exec_of_errorOf_draws (.getrandbits hk) h
  | random => exact exec_of_errorOf_draws .random h
  | stat => cases h

/-- What `Performs` says of a command is what `exec` does. -/
theorem exec_of_performs {i : Instr} {s u : State} {out : List Byte} (h : Performs i s out u) :
    exec i s = .next (respond out u) := by
  cases h with
  | sinit hds hrc => simp [exec, execSinit, hds, hrc]
  | hinit hv => simp [exec, execHinit, hv]
  | absorb hm hp hr => simp [exec, execAbsorb, hm, hp, hr]
  | squeeze hm hr => simp [exec, execSqueeze, hm, hr]
  | update hm hf hr => simp [exec, execUpdate, hm, hf, hr]
  | finalize hi hm hd hf hr => simp [exec_digestText hi, reportDigest, hm, hd, hf, hr]
  | report hi hm hd hf => simp [exec_digestText hi, reportDigest, hm, hd, hf]
  | rbind => rfl
  | drawInt hi hs hm hr => simp [exec_draws hi, draw, psqReady, psq, hs, hm, hr]
  | drawExt hi hs => simp [exec_draws hi, draw, psqReady, psq, hs]
  | stat => rfl

/-- The preconditions of the Sponge's steps and of the digest store hold where there is something they speak of. -/
def Ready (b : Block) : Prop :=
  (b.MODE ≠ .none → spongeReady b = true) ∧ (b.MODE = .hash → digestReady b = true)

theorem Ready.sponge_of_raw {b : Block} (h : Ready b) (hm : b.MODE = .raw) : spongeReady b = true := h.1 (by simp [hm])

theorem Ready.sponge_of_hash {b : Block} (h : Ready b) (hm : b.MODE = .hash) : spongeReady b = true := h.1 (by simp [hm])

/-- `i` performs its effect in `s`, or it faults there and `s` is not `Ready`. -/
def PerformsOrFaults (i : Instr) (s : State) : Prop :=
  (∃ out u, Performs i s out u) ∨ ¬Ready s.blk ∧ ∃ f, exec i s = .fault f

theorem performsOrFaults_digestText {i : Instr} {text : List Byte → List Byte} (hi : DigestText i text) {s : State}
    (h : errorOf i s.blk = none) : PerformsOrFaults i s := by
  rw [errorOf_digestText hi] at h
  split_ifs at h with hm
  by_cases hd : digestReady s.blk
  · cases hf : s.blk.FINALIZED with
    | true => exact .inl ⟨_, _, .report hi hm hd hf⟩
    | false =>
      by_cases hr : spongeReady s.blk
      · exact .inl ⟨_, _, .finalize hi hm hd hf hr⟩
      · exact .inr ⟨fun h => hr (h.sponge_of_hash hm), .spongePrecondition,
          by simp [exec_digestText hi, reportDigest, hm, hd, hf, hr]⟩
  · exact .inr ⟨fun h => hd (h.2 hm), .noSuchDigestByte,
      by simp [exec_digestText hi, reportDigest, hm, hd]⟩

theorem performsOrFaults_draws {i : Instr} {n : Nat} {f : Nat → List Byte} (hi : Draws i n f) {s : State}
    (h : errorOf i s.blk = none) : PerformsOrFaults i s := by
  rw [errorOf_draws hi] at h
  split_ifs at h with hav
  cases hs : s.blk.PSEL with
  | ext => exact .inl ⟨_, _, .drawExt hi hs⟩
  | int =>
    have hm : s.blk.MODE = .raw := by simpa [hs] using hav
    by_cases hr : spongeReady s.blk
    · exact .inl ⟨_, _, .drawInt hi hs hm hr⟩
    · exact .inr ⟨fun h => hr (h.sponge_of_raw hm), .spongePrecondition,
        by simp [exec_draws hi, draw, psqReady, hs, hm, hr]⟩

/-- A command of which the tables name no error performs its effect, or faults where the state is not `Ready`. -/
theorem performsOrFaults {i : Instr} {s : State} (h : errorOf i s.blk = none) : PerformsOrFaults i s := by
  cases i with
  | sinit rate cap ds =>
    rw [errorOf_sinit] at h
    split_ifs at h with hds hrc
    exact .inl ⟨_, _, .sinit (by simpa using hds) hrc⟩
  | absorb data =>
    rw [errorOf_absorb] at h
    split_ifs at h with hm hp
    by_cases hr : spongeReady s.blk
    · exact .inl ⟨_, _, .absorb hm hp hr⟩
    · exact .inr ⟨fun h => hr (h.sponge_of_raw hm), .spongePrecondition,
        by simp [exec, execAbsorb, hm, hp, hr]⟩
  | squeeze n =>
    rw [errorOf_squeeze] at h
    split_ifs at h with hm
    by_cases hr : spongeReady s.blk
    · exact .inl ⟨_, _, .squeeze hm hr⟩
    · exact .inr ⟨fun h => hr (h.sponge_of_raw hm), .spongePrecondition,
        by simp [exec, execSqueeze, hm, hr]⟩
  | hinit var data =>
    rw [errorOf_hinit] at h
    split_ifs at h with hv
    obtain ⟨v, hv⟩ := Option.ne_none_iff_exists'.1 hv
    exact .inl ⟨_, _, .hinit hv⟩
  | update data =>
    rw [errorOf_update] at h
    split_ifs at h with hm hf
    by_cases hr : spongeReady s.blk
    · exact .inl ⟨_, _, .update hm (by simpa using hf) hr⟩
    · exact .inr ⟨fun h => hr (h.sponge_of_hash hm), .spongePrecondition,
        by simp [exec, execUpdate, hm, hf, hr]⟩
  | digest => exact performsOrFaults_digestText .digest h
  | hexdigest => exact performsOrFaults_digestText .hexdigest h
  | rbind p => exact .inl ⟨_, _, .rbind⟩
  | getrandbits k =>
    by_cases hk : k = 0
    · subst hk
      cases h
    · exact performsOrFaults_draws (.getrandbits hk) h
  | random => exact performsOrFaults_draws .random h
  | stat => exact .inl ⟨_, _, .stat⟩

/-- Everything a command can do when it answers a next state: it raises the error that the tables name, or the tables name
none and it performs its effect and responds. -/
theorem exec_next {i : Instr} {s t : State} (h : exec i s = .next t) :
    (∃ e, errorOf i s.blk = some e ∧ t = raise e s) ∨
    (errorOf i s.blk = none ∧ ∃ out u, Performs i s out u ∧ t = respond out u) := by
  cases he : errorOf i s.blk with
  | some e =>
    rw [exec_of_errorOf he] at h
    exact .inl ⟨e, rfl, by cases h; rfl⟩
  | none =>
    obtain ⟨out, u, hp⟩ | ⟨-, f, hf⟩ := performsOrFaults he
    · rw [exec_of_performs hp] at h
      exact .inr ⟨rfl, out, u, hp, by cases h; rfl⟩
    · rw [hf] at h
      cases h

/-- R58: where the preconditions hold every command completes. -/
theorem exec_completes {s : State} (hr : Ready s.blk) (i : Instr) : ∃ t, exec i s = .next t := by
  cases he : errorOf i s.blk with
  | some e => exact ⟨_, exec_of_errorOf he⟩
  | none =>
    obtain ⟨out, u, hp⟩ | ⟨hnot, -⟩ := performsOrFaults he
    · exact ⟨_, exec_of_performs hp⟩
    · exact absurd hr hnot

theorem ready_of_inv {s : State} (h : Inv s) : Ready s.blk := ⟨spongeReady_of_inv h, digestReady_of_inv h⟩

end Sys2Proof.Machine
end

section
/-! PROOFS. What every command leaves alone: the host's side of the port, the configuration, the bound provider, the lock,
and a finalized Hash Engine. -/

namespace Sys2Proof.Machine

/-! ### `FINALIZE` in two parts (R133) -/

/-- R133: the lock, which `FINALIZE` sets first. -/
def lock (s : State) : State := { s with blk := { s.blk with FINALIZED := true } }

/-- R133: `FINALIZE` locks, squeezes the digest and caches it. -/
theorem finalizeDigest_eq (s : State) :
    finalizeDigest s = { (squeeze s.blk.OUTLEN.toNat (lock s)).2 with
      blk := { (squeeze s.blk.OUTLEN.toNat (lock s)).2.blk with
        DCACHE := (squeeze s.blk.OUTLEN.toNat (lock s)).2.blk.DCACHE.writeBytes 0
          (squeeze s.blk.OUTLEN.toNat (lock s)).1 } } := rfl

/-! ### Frame of the shared operations -/

/-- R106: `SQ` leaves everything beside the block as it was. -/
theorem squeeze_env (n : Nat) (s : State) :
    (squeeze n s).2.par = s.par ∧ (squeeze n s).2.ext = s.ext ∧ (squeeze n s).2.cmd = s.cmd ∧
    (squeeze n s).2.cpos = s.cpos ∧ (squeeze n s).2.resp = s.resp ∧
    (squeeze n s).2.resetPending = s.resetPending := by
  simp [squeeze_snd]

/-- Two blocks with the same configuration, which only a construction writes (R22, R26, R28, R29). -/
structure SameConfig (b c : Block) : Prop where
  rate   : c.RATE = b.RATE
  cap    : c.CAP = b.CAP
  dsbyte : c.DSBYTE = b.DSBYTE
  mode   : c.MODE = b.MODE
  outlen : c.OUTLEN = b.OUTLEN

theorem absorb_sameConfig (data : List Byte) (s : State) : SameConfig s.blk (absorb data s).blk := by
  rw [absorb_blk]
  exact ⟨rfl, rfl, rfl, rfl, rfl⟩

theorem squeeze_sameConfig (n : Nat) (s : State) : SameConfig s.blk (squeeze n s).2.blk := by
  rw [squeeze_blk]
  exact ⟨rfl, rfl, rfl, rfl, rfl⟩

theorem finalizeDigest_sameConfig (s : State) : SameConfig s.blk (finalizeDigest s).blk := by
  rw [finalizeDigest_blk]
  exact ⟨rfl, rfl, rfl, rfl, rfl⟩

@[simp] theorem squeeze_PSEL (n : Nat) (s : State) : (squeeze n s).2.blk.PSEL = s.blk.PSEL := by rw [squeeze_blk]
@[simp] theorem squeeze_ERR (n : Nat) (s : State) : (squeeze n s).2.blk.ERR = s.blk.ERR := by rw [squeeze_blk]
@[simp] theorem squeeze_PHASE (n : Nat) (s : State) : (squeeze n s).2.blk.PHASE = .squeezing := by rw [squeeze_blk]
@[simp] theorem squeeze_FINALIZED (n : Nat) (s : State) : (squeeze n s).2.blk.FINALIZED = s.blk.FINALIZED := by
  rw [squeeze_blk]
@[simp] theorem finalizeDigest_PSEL (s : State) : (finalizeDigest s).blk.PSEL = s.blk.PSEL := by
  rw [finalizeDigest_blk]
@[simp] theorem finalizeDigest_ERR (s : State) : (finalizeDigest s).blk.ERR = s.blk.ERR := by
  rw [finalizeDigest_blk]
@[simp] theorem finalizeDigest_PHASE (s : State) : (finalizeDigest s).blk.PHASE = .squeezing := by
  rw [finalizeDigest_blk]
@[simp] theorem finalizeDigest_FINALIZED (s : State) : (finalizeDigest s).blk.FINALIZED = true := by
  rw [finalizeDigest_blk]

/-! ### Frame of what a command performs -/

/-- R46: the commands that construct. -/
def NoConstruction (i : Instr) : Prop := (∀ rate cap ds, i ≠ .sinit rate cap ds) ∧ ∀ var data, i ≠ .hinit var data

theorem Performs.sameEnv {i : Instr} {s u : State} {out : List Byte} (h : Performs i s out u) : SameEnv s u := by
  cases h with
  | sinit | report | rbind | drawExt | stat => exact ⟨rfl, rfl, rfl, rfl⟩
  | hinit | absorb | update => simp [SameEnv]
  | squeeze | drawInt => simp [SameEnv, squeeze_env]
  | finalize => simp [SameEnv, finalizeDigest_env]

/-- R36, R86: no successful command writes `ERR`, and the response is not written before the end. -/
theorem Performs.resp_err {i : Instr} {s u : State} {out : List Byte} (h : Performs i s out u) :
    u.resp = s.resp ∧ u.blk.ERR = s.blk.ERR := by
  cases h with
  | sinit | report | rbind | drawExt | stat => exact ⟨rfl, rfl⟩
  | hinit | absorb | update => simp
  | squeeze | drawInt => simp [squeeze_env]
  | finalize => simp [finalizeDigest_env]

/-- R22, R26, R28, R29: only a construction writes the configuration. -/
theorem Performs.sameConfig {i : Instr} {s u : State} {out : List Byte} (h : Performs i s out u)
    (hi : NoConstruction i) : SameConfig s.blk u.blk := by
  cases h with
  | sinit => exact absurd rfl (hi.1 _ _ _)
  | hinit => exact absurd rfl (hi.2 _ _)
  | absorb | update => exact absorb_sameConfig _ _
  | squeeze | drawInt => exact squeeze_sameConfig _ _
  | finalize => exact finalizeDigest_sameConfig _
  | report | rbind | drawExt | stat => exact ⟨rfl, rfl, rfl, rfl, rfl⟩

/-- R34: only RBIND binds a provider. -/
theorem Performs.psel {i : Instr} {s u : State} {out : List Byte} (h : Performs i s out u)
    (hi : ∀ p, i ≠ .rbind p) : u.blk.PSEL = s.blk.PSEL := by
  cases h with
  | rbind => exact absurd rfl (hi _)
  | sinit | report | drawExt | stat => rfl
  | hinit | absorb | update | squeeze | drawInt | finalize => simp

/-- R40: only a draw from the external provider moves it. -/
theorem Performs.ext {i : Instr} {s u : State} {out : List Byte} (h : Performs i s out u)
    (hi : s.blk.PSEL = .int ∨ ((∀ k, i ≠ .getrandbits k) ∧ i ≠ .random)) : u.ext = s.ext := by
  cases h with
  | drawExt hd hs =>
    obtain hint | ⟨hgetrandbits, hrandom⟩ := hi
    · rw [hs] at hint
      cases hint
    · cases hd with
      | getrandbits => exact absurd rfl (hgetrandbits _)
      | random => exact absurd rfl hrandom
  | sinit | report | rbind | stat => rfl
  | hinit | absorb | update => simp
  | squeeze | drawInt => simp [squeeze_env]
  | finalize => simp [finalizeDigest_env]

/-- R30, R110: only a construction ends the squeezing phase or unlocks. -/
theorem Performs.irreversible {i : Instr} {s u : State} {out : List Byte} (h : Performs i s out u)
    (hi : NoConstruction i) :
    (s.blk.PHASE = .squeezing → u.blk.PHASE = .squeezing) ∧ (s.blk.FINALIZED = true → u.blk.FINALIZED = true) := by
  cases h with
  | sinit => exact absurd rfl (hi.1 _ _ _)
  | hinit => exact absurd rfl (hi.2 _ _)
  | report | rbind | drawExt | stat => exact ⟨id, id⟩
  | absorb | update | squeeze | drawInt | finalize => simp

/-- R32, R140: on a finalized Hash Engine the commands that succeed and construct nothing report, bind or draw from the
external provider. -/
theorem Performs.readOnly {i : Instr} {s u : State} {out : List Byte} (h : Performs i s out u)
    (hi : NoConstruction i) (hm : s.blk.MODE = .hash) (hf : s.blk.FINALIZED = true) :
    u.blk = { s.blk with PSEL := u.blk.PSEL, ERR := u.blk.ERR } ∧ u.permuteCalls = s.permuteCalls := by
  have notRaw : s.blk.MODE ≠ .raw := by simp [hm]
  cases h with
  | sinit => exact absurd rfl (hi.1 _ _ _)
  | hinit => exact absurd rfl (hi.2 _ _)
  | absorb hraw | squeeze hraw => exact absurd hraw notRaw
  | drawInt _ _ hraw => exact absurd hraw notRaw
  | update _ hopen => simp [hf] at hopen
  | finalize _ _ _ hopen => simp [hf] at hopen
  | report | rbind | drawExt | stat => exact ⟨rfl, rfl⟩

/-- A command that is no construction, or that fails, constructs nothing where it succeeds. -/
theorem noConstruction_of_errorOf_none {i : Instr} {b : Block} (he : errorOf i b = none)
    (h : NoConstruction i ∨ errorOf i b ≠ none) : NoConstruction i := h.resolve_right (not_not_intro he)

/-! ### The statements about every command -/

/-- Settles O20: a failing command raises its error, and no successful one writes `ERR`. -/
theorem errIsTheLastFailure : Obligations.ErrIsTheLastFailure := by
  intro i s t h
  obtain ⟨e, -, rfl⟩ | ⟨-, out, u, hu, rfl⟩ := exec_next h
  · exact .inr ⟨e, rfl, rfl⟩
  · obtain ⟨hresp, herr⟩ := hu.resp_err
    exact .inl ⟨out, by rw [respond_resp, hresp]; rfl, herr⟩

/-- Settles O22: a failing command writes `ERR` and its response only; a successful one keeps to its frame. -/
theorem whatCommandsLeaveAlone : Obligations.WhatCommandsLeaveAlone := by
  intro i s t h
  obtain ⟨e, -, rfl⟩ | ⟨he, out, u, hu, rfl⟩ := exec_next h
  · exact ⟨⟨rfl, rfl, rfl, rfl⟩, fun _ => ⟨rfl, rfl, rfl, rfl, rfl⟩, fun _ => rfl, fun _ => rfl⟩
  · refine ⟨hu.sameEnv, fun hi => ?_, hu.psel, hu.ext⟩
    obtain ⟨hrate, hcap, hds, hmode, houtlen⟩ := hu.sameConfig (noConstruction_of_errorOf_none he hi)
    exact ⟨hrate, hcap, hds, hmode, houtlen⟩

/-- Settles O23: of the commands that are no construction, failing ones write `ERR` only, successful ones keep the phase
and the lock. -/
theorem finalizationIsIrreversible : Obligations.FinalizationIsIrreversible := by
  intro i s t hsinit hhinit h
  obtain ⟨e, -, rfl⟩ | ⟨-, out, u, hu, rfl⟩ := exec_next h
  · exact ⟨id, id⟩
  · exact hu.irreversible ⟨hsinit, hhinit⟩

/-- Settles O43: a failing command writes `ERR` only, and a successful one that constructs nothing is read-only here. -/
theorem finalizedHashEngineIsReadOnly : Obligations.FinalizedHashEngineIsReadOnly := by
  intro i s t hm hf hi h
  obtain ⟨e, -, rfl⟩ | ⟨he, out, u, hu, rfl⟩ := exec_next h
  · exact ⟨rfl, rfl⟩
  · exact hu.readOnly (noConstruction_of_errorOf_none he hi) hm hf

/-! ### `ERR` influences STAT only (R36) -/

/-- The state with `ERR` at `x`. -/
def setErr (x : Byte) (s : State) : State := { s with blk := { s.blk with ERR := x } }

theorem errorOf_setErr (i : Instr) (x : Byte) (s : State) : errorOf i (setErr x s).blk = errorOf i s.blk := by
  cases i <;> rfl

theorem raise_setErr (e : Error) (x : Byte) (s : State) : raise e (setErr x s) = setErr e.code (raise e s) := rfl

theorem absorbByte_setErr (b x : Byte) (s : State) : absorbByte (setErr x s) b = setErr x (absorbByte s b) := by
  rw [absorbByte, absorbByte, apply_ite (setErr x)]
  rfl

theorem absorb_setErr (data : List Byte) (x : Byte) (s : State) :
    absorb data (setErr x s) = setErr x (absorb data s) := by
  induction data generalizing s with
  | nil => rfl
  | cons b data ih => rw [absorb_cons, absorb_cons, absorbByte_setErr, ih]

theorem finalizeSponge_setErr (x : Byte) (s : State) :
    finalizeSponge (setErr x s) = setErr x (finalizeSponge s) := by
  rw [finalizeSponge, finalizeSponge, apply_ite (setErr x)]
  rfl

theorem squeezeStep_setErr (x : Byte) (s : State) : squeezeStep (setErr x s) = setErr x (squeezeStep s) := by
  rw [squeezeStep, squeezeStep, apply_ite (setErr x)]
  rfl

theorem squeezeOut_setErr (n : Nat) (x : Byte) (s : State) : squeezeOut n (setErr x s) = squeezeOut n s := by
  induction n generalizing s with
  | zero => rfl
  | succ n ih => rw [squeezeOut_succ, squeezeOut_succ, squeezeStep_setErr, ih]; rfl

theorem squeezeEnd_setErr (n : Nat) (x : Byte) (s : State) : squeezeEnd n (setErr x s) = setErr x (squeezeEnd n s) := by
  induction n generalizing s with
  | zero => rfl
  | succ n ih => rw [squeezeEnd_succ, squeezeEnd_succ, squeezeStep_setErr, ih]

theorem squeeze_setErr (n : Nat) (x : Byte) (s : State) :
    squeeze n (setErr x s) = ((squeeze n s).1, setErr x (squeeze n s).2) := by
  simp only [squeeze, finalizeSponge_setErr, squeezeOut_setErr, squeezeEnd_setErr]

theorem finalizeDigest_setErr (x : Byte) (s : State) :
    finalizeDigest (setErr x s) = setErr x (finalizeDigest s) := by
  have hlock : lock (setErr x s) = setErr x (lock s) := rfl
  simp only [finalizeDigest_eq, hlock, squeeze_setErr]
  rfl

/-- What a successful command other than STAT performs, its output among it, does not depend on `ERR`. -/
theorem performs_setErr {i : Instr} {s u : State} {out : List Byte} (h : Performs i s out u) (hi : i ≠ .stat)
    (x : Byte) : Performs i (setErr x s) out (setErr x u) := by
  cases h with
  | sinit hds hrc => exact .sinit hds hrc
  | hinit hv =>
    rw [← absorb_setErr]
    exact .hinit hv
  | absorb hm hp hr =>
    rw [← absorb_setErr]
    exact .absorb hm hp hr
  | update hm hf hr =>
    rw [← absorb_setErr]
    exact .update hm hf hr
  | @squeeze n _ hm hr =>
    have h := @Performs.squeeze n (setErr x s) hm hr
    rwa [squeeze_setErr] at h
  | finalize hd hm hdr hf hr =>
    have h := Performs.finalize (s := setErr x s) hd hm hdr hf hr
    rwa [finalizeDigest_setErr] at h
  | report hd hm hdr hf => exact Performs.report (s := setErr x s) hd hm hdr hf
  | rbind => exact .rbind
  | drawInt hd hs hm hr =>
    have h := Performs.drawInt (s := setErr x s) hd hs hm hr
    rwa [squeeze_setErr] at h
  | drawExt hd hs => exact Performs.drawExt (s := setErr x s) hd hs
  | stat => exact absurd rfl hi

/-- Settles O21: with another `ERR` a failing command raises the same error and a successful one performs the same. -/
theorem errInfluencesOnlyStat : Obligations.ErrInfluencesOnlyStat := by
  intro i s t x hi h
  obtain ⟨e, he, rfl⟩ | ⟨-, out, u, hu, rfl⟩ := exec_next h
  · exact ⟨e.code, exec_of_errorOf (s := setErr x s) ((errorOf_setErr i x s).trans he)⟩
  · exact ⟨x, exec_of_performs (performs_setErr hu hi x)⟩

end Sys2Proof.Machine
end

section
/-! PROOFS. The invariant of R27 and R33: it holds at reset, and every step keeps it. -/

namespace Sys2Proof.Machine

/-! ### Reset, and writes to `PSEL` and `ERR` -/

/-- R45, R33: a block at its reset values meets the invariant, whatever stands beside it. -/
theorem inv_of_blk_reset {s : State} (hb : s.blk = Block.reset) (hds : dsReserved s.par.hashDsbyte = false) : Inv s where
  sWf        := by rw [hb]; rfl
  dcacheWf   := by rw [hb]; rfl
  errLegal   := by rw [hb]; decide
  hashDsbyte := hds
  sponge     := fun hm => absurd (by rw [hb]; rfl) hm
  none       := fun _ => by rw [hb]; rfl
  raw        := fun hm => by rw [hb] at hm; cases hm
  hash       := fun hm => by rw [hb] at hm; cases hm

/-- The invariant bounds `ERR` and does not speak of `PSEL` or of anything beside the block but `HASH_DSBYTE`. -/
theorem inv_of_psel_err {s t : State} (h : Inv s) {p : ProviderSel} {e : Byte}
    (hb : t.blk = { s.blk with PSEL := p, ERR := e }) (he : e.toNat ≤ 3) (hp : t.par = s.par) : Inv t where
  sWf        := by rw [hb]; exact h.sWf
  dcacheWf   := by rw [hb]; exact h.dcacheWf
  errLegal   := by rw [hb]; exact he
  hashDsbyte := by rw [hp]; exact h.hashDsbyte
  sponge     := by
    rw [hb]
    intro hm
    obtain ⟨hmin, hmax, hsum, ha, hs, hsq, hab, hds⟩ := h.sponge hm
    exact ⟨hmin, hmax, hsum, ha, hs, hsq, hab, hds⟩
  none       := by
    rw [hb]
    intro hm
    have hn : s.blk = { Block.reset with PSEL := s.blk.PSEL, ERR := s.blk.ERR } := h.none hm
    rw [hn]
    rfl
  raw        := by
    rw [hb]
    intro hm
    obtain ⟨hf, ho, hd⟩ := h.raw hm
    exact ⟨hf, ho, hd⟩
  hash       := by
    rw [hb, hp]
    intro hm
    obtain ⟨hrow, hds, hph, hcur, hdig, hnot⟩ := h.hash hm
    exact ⟨hrow, hds, hph, hcur, hdig, hnot⟩

/-- R181: the codes. -/
theorem code_le_three (e : Error) : e.code.toNat ≤ 3 := by cases e <;> decide

/-- R186: a failing command keeps the invariant. -/
theorem inv_raise {s : State} (h : Inv s) (e : Error) : Inv (raise e s) := inv_of_psel_err h rfl (code_le_three e) rfl

/-- A response is no part of what the invariant speaks of. -/
theorem inv_respond {s : State} (h : Inv s) (out : List Byte) : Inv (respond out s) :=
  inv_of_psel_err h rfl h.errLegal rfl

/-! ### The invariant of a Sponge -/

/-- R27 of a new Sponge, from its construction check. -/
theorem spongeInv_construct {rate cap ds : Byte} (hds : dsReserved ds = false) (hrc : rateCapOk rate cap = true)
    (mode : Mode) (outlen : Byte) (s : State) : SpongeInv (construct mode rate cap ds outlen s).blk := by
  simp only [rateCapOk, Bool.and_eq_true, decide_eq_true_eq] at hrc
  obtain ⟨⟨hrate, hcap⟩, hsum⟩ := hrc
  have hmax : rate.toNat ≤ 199 := by omega
  exact ⟨hrate, hmax, hsum, hrate, hrate, fun h => (by cases h), fun _ => rfl, hds⟩

/-- R27 is kept where the configuration stays, the cursors meet the preconditions and each phase has its cursor at 0. -/
theorem spongeInv_of_sameConfig {b c : Block} (h : SpongeInv b) (hc : SameConfig b c) (hr : spongeReady c = true)
    (hsq : c.PHASE = .squeezing → c.ACUR = 0) (hab : c.PHASE = .absorbing → c.SCUR = 0) : SpongeInv c := by
  obtain ⟨hrate, hcap, hds, -, -⟩ := hc
  obtain ⟨hmax, ha, hs⟩ := (spongeReady_iff c).1 hr
  exact ⟨hrate ▸ h.rateMin, hmax, by rw [hrate, hcap]; exact h.sum, ha, hs, hsq, hab, hds ▸ h.dsLegal⟩

/-- R102: `AB` keeps R27. -/
theorem spongeInv_absorb {s : State} (h : SpongeInv s.blk) (hp : s.blk.PHASE = .absorbing) (data : List Byte) :
    SpongeInv (absorb data s).blk := by
  have hr : spongeReady s.blk = true := (spongeReady_iff _).2 ⟨h.rateMax, h.acurLt, h.scurLt⟩
  refine spongeInv_of_sameConfig h (absorb_sameConfig data s) (absorb_ready hr data) ?_ ?_
  · simp [hp]
  · simpa using h.absorbingScur

/-- R106: where the phase is SQUEEZING the absorb cursor is 0, and the finalization puts it there. -/
theorem squeeze_ACUR {s : State} (h : SpongeInv s.blk) (n : Nat) : (squeeze n s).2.blk.ACUR = 0 := by
  rw [squeeze_snd, squeezeEnd_ACUR]
  cases hp : s.blk.PHASE with
  | absorbing => rw [finalizeSponge, if_pos hp, finpad_blk]
  | squeezing => rw [finalizeSponge_of_squeezing hp, h.squeezingAcur hp]

/-- R106: `SQ` keeps R27. -/
theorem spongeInv_squeeze {s : State} (h : SpongeInv s.blk) (n : Nat) : SpongeInv (squeeze n s).2.blk := by
  have hr : spongeReady s.blk = true := (spongeReady_iff _).2 ⟨h.rateMax, h.acurLt, h.scurLt⟩
  refine spongeInv_of_sameConfig h (squeeze_sameConfig n s) (squeezeEnd_ready (finalizeSponge_ready hr) n) ?_ ?_
  · exact fun _ => squeeze_ACUR h n
  · simp

/-! ### The invariant by mode -/

/-- The invariant of a RAW block. -/
theorem inv_of_raw {s : State} (hm : s.blk.MODE = .raw) (hS : s.blk.S.wf Config.stateBytes = true)
    (he : s.blk.ERR.toNat ≤ 3) (hds : dsReserved s.par.hashDsbyte = false) (hsp : SpongeInv s.blk)
    (hraw : RawInv s.blk) : Inv s where
  sWf        := hS
  dcacheWf   := by rw [hraw.dcache]; rfl
  errLegal   := he
  hashDsbyte := hds
  sponge     := fun _ => hsp
  none       := fun h => by rw [hm] at h; cases h
  raw        := fun _ => hraw
  hash       := fun h => by rw [hm] at h; cases h

/-- The invariant of a HASH block. -/
theorem inv_of_hash {s : State} (hm : s.blk.MODE = .hash) (hS : s.blk.S.wf Config.stateBytes = true)
    (hD : s.blk.DCACHE.wf Config.dcacheBytes = true) (he : s.blk.ERR.toNat ≤ 3)
    (hds : dsReserved s.par.hashDsbyte = false) (hsp : SpongeInv s.blk) (hh : HashInv s.par.hashDsbyte s.blk) :
    Inv s where
  sWf        := hS
  dcacheWf   := hD
  errLegal   := he
  hashDsbyte := hds
  sponge     := fun _ => hsp
  none       := fun h => by rw [hm] at h; cases h
  raw        := fun h => by rw [hm] at h; cases h
  hash       := fun _ => hh

/-! ### Construction -/

/-- R101: a new RAW block. -/
theorem inv_construct_raw {s : State} (h : Inv s) {rate cap ds : Byte} (hds : dsReserved ds = false)
    (hrc : rateCapOk rate cap = true) : Inv (construct .raw rate cap ds 0 s) :=
  inv_of_raw rfl rfl h.errLegal h.hashDsbyte (spongeInv_construct hds hrc _ _ s) ⟨rfl, rfl, rfl⟩

/-- R9: every row of the variant table passes the construction check. -/
theorem rateCapOk_of_mem_variantTable : ∀ v ∈ variantTable, rateCapOk v.rate v.cap = true := by decide

/-- R131: a new HASH block, before it takes the initial message. -/
theorem inv_construct_hash {s : State} (h : Inv s) {v : VariantRow} (hv : v ∈ variantTable) :
    Inv (construct .hash v.rate v.cap s.par.hashDsbyte v.outlen s) :=
  inv_of_hash rfl rfl rfl h.errLegal h.hashDsbyte
    (spongeInv_construct h.hashDsbyte (rateCapOk_of_mem_variantTable v hv) _ _ s)
    { row       := ⟨v, hv, rfl, rfl, rfl⟩
      ds        := rfl
      phase     := by simp
      finCursor := fun hf => by cases hf
      finDigest := fun hf => by cases hf
      notFin    := fun _ => ⟨rfl, rfl⟩ }

/-! ### `AB` and `SQ` -/

/-- R33: a Hash Engine absorbs exactly while it is not finalized. -/
theorem HashInv.phase_absorbing {ds : Byte} {b : Block} (h : HashInv ds b) (hf : b.FINALIZED = false) :
    b.PHASE = .absorbing := by
  cases hp : b.PHASE with
  | absorbing => rfl
  | squeezing =>
    rw [h.phase.1 hp] at hf
    cases hf

/-- R102, R103: `AB` keeps the invariant of a RAW block. -/
theorem inv_absorb_raw {s : State} (h : Inv s) (hm : s.blk.MODE = .raw) (hp : s.blk.PHASE = .absorbing)
    (data : List Byte) : Inv (absorb data s) := by
  have hsome : s.blk.MODE ≠ .none := by simp [hm]
  obtain ⟨hf, ho, hd⟩ := h.raw hm
  exact inv_of_raw (by simpa using hm) (absorb_wf (spongeReady_of_inv h hsome) h.sWf data) (by simpa using h.errLegal)
    (by simpa using h.hashDsbyte) (spongeInv_absorb (h.sponge hsome) hp data) ⟨by simpa, by simpa, by simpa⟩

/-- R132: `AB` keeps the invariant of a HASH block that is not finalized. -/
theorem inv_absorb_hash {s : State} (h : Inv s) (hm : s.blk.MODE = .hash) (hf : s.blk.FINALIZED = false)
    (data : List Byte) : Inv (absorb data s) := by
  have hsome : s.blk.MODE ≠ .none := by simp [hm]
  have hh := h.hash hm
  refine inv_of_hash (by simpa using hm) (absorb_wf (spongeReady_of_inv h hsome) h.sWf data) (by simpa using h.dcacheWf)
    (by simpa using h.errLegal) (by simpa using h.hashDsbyte)
    (spongeInv_absorb (h.sponge hsome) (hh.phase_absorbing hf) data) ?_
  exact
    { row       := by simpa using hh.row
      ds        := by simpa using hh.ds
      phase     := by simpa using hh.phase
      finCursor := by simp [hf]
      finDigest := by simp [hf]
      notFin    := by simpa using hh.notFin }

/-- R107: `SQ` keeps the invariant of a RAW block. -/
theorem inv_squeeze {s : State} (h : Inv s) (hm : s.blk.MODE = .raw) (n : Nat) : Inv (squeeze n s).2 := by
  obtain ⟨hf, ho, hd⟩ := h.raw hm
  obtain ⟨-, -, -, hmode, houtlen⟩ := squeeze_sameConfig n s
  have hpar : (squeeze n s).2.par = s.par := (squeeze_env n s).1
  have hdcache : (squeeze n s).2.blk.DCACHE = s.blk.DCACHE := by rw [squeeze_blk]
  exact inv_of_raw (hmode.trans hm) (squeezeEnd_wf (finalizeSponge_wf h.sWf) n) (by simpa using h.errLegal)
    (by rw [hpar]; exact h.hashDsbyte) (spongeInv_squeeze (h.sponge (by simp [hm])) n)
    ⟨by simpa using hf, houtlen.trans ho, hdcache.trans hd⟩

/-! ### The first digest -/

/-- R106: while the request stays inside the block the squeeze loop moves the cursor and nothing else. -/
theorem squeezeEnd_within_block {s : State} (h : spongeReady s.blk = true) (n : Nat)
    (hn : s.blk.SCUR.toNat + n < s.blk.RATE.toNat) :
    squeezeEnd n s = setScur (s.blk.SCUR + BitVec.ofNat 8 n) s := by
  induction n generalizing s with
  | zero => simp [setScur]
  | succ n ih =>
    obtain ⟨hmax, -, hs⟩ := (spongeReady_iff _).1 h
    obtain ⟨hsucc, hwrap⟩ := cursor_succ hmax hs
    have hstep : squeezeStep s = setScur (s.blk.SCUR + 1) s := if_neg (by rw [hwrap]; omega)
    have hcur : s.blk.SCUR + 1 + BitVec.ofNat 8 n = s.blk.SCUR + BitVec.ofNat 8 (n + 1) := by
      rw [Nat.add_comm n 1, BitVec.ofNat_add, BitVec.add_assoc]
      rfl
    rw [squeezeEnd_succ, ih (squeezeStep_ready h) (by rw [hstep]; simp only [setScur_blk, hsucc]; omega), hstep, ← hcur]
    rfl

/-- R104, R106: a first request that is shorter than a block pads, and answers with the front of the permuted `S`. -/
theorem squeeze_of_absorbing {s : State} (hp : s.blk.PHASE = .absorbing) (hr : s.blk.RATE.toNat ≤ 199) {n : Nat}
    (hn : n < s.blk.RATE.toNat) :
    squeeze n s = ((finpad s).blk.S.readBytes 0 n, setScur (BitVec.ofNat 8 n) (finpad s)) := by
  have hready : spongeReady (finpad s).blk = true :=
    (spongeReady_iff _).2 ⟨hr, Nat.zero_lt_of_lt hn, Nat.zero_lt_of_lt hn⟩
  have hwithin : (finpad s).blk.SCUR.toNat + n < (finpad s).blk.RATE.toNat := by
    rw [finpad_blk]
    simpa using hn
  have hcur : (finpad s).blk.SCUR + BitVec.ofNat 8 n = BitVec.ofNat 8 n := by
    rw [finpad_blk]
    simp
  rw [squeeze, finalizeSponge, if_pos hp, squeezeEnd_within_block hready n hwithin,
    (squeeze_within_block hready n hwithin).1, hcur]
  rfl

/-- R133: `FINALIZE()` of an absorbing engine whose digest is shorter than a block pads, and reads the digest from the
front of `S` with no further permutation. -/
theorem finalizeDigest_of_absorbing {s : State} (hp : s.blk.PHASE = .absorbing) (hr : s.blk.RATE.toNat ≤ 199)
    (ho : s.blk.OUTLEN.toNat < s.blk.RATE.toNat) :
    finalizeDigest s = { finpad s with
      blk := { (finpad s).blk with
        SCUR := s.blk.OUTLEN, FINALIZED := true,
        DCACHE := s.blk.DCACHE.writeBytes 0 ((finpad s).blk.S.readBytes 0 s.blk.OUTLEN.toNat) } } := by
  have hsq := squeeze_of_absorbing (s := lock s) hp hr ho
  rw [BitVec.ofNat_toNat, BitVec.setWidth_eq] at hsq
  rw [finalizeDigest_eq, hsq]
  rfl

/-- R9: every digest is shorter than its block and fits the cache. -/
theorem outlen_lt_of_mem_variantTable :
    ∀ v ∈ variantTable, v.outlen.toNat < v.rate.toNat ∧ v.outlen.toNat ≤ Config.dcacheBytes := by decide

/-- R133: after the first digest the cache holds the front of `S` and nothing else. -/
theorem read_digest {m : Memory} {size n : Nat} (hn : n ≤ size) (j : Nat) :
    (Memory.writeBytes [] 0 (m.readBytes 0 n)).read j = if j < n then m.read j else 0 := by
  rw [Memory.read_writeBytes (Memory.wf_nil size) 0 _ (by simpa using hn), Memory.length_readBytes]
  by_cases hj : j < n
  · rw [if_pos (by omega), if_pos hj, Memory.getD_readBytes _ _ _ _ (by omega), Nat.zero_add, Nat.sub_zero]
  · rw [if_neg (by omega), if_neg hj]
    rfl

/-- R133, R140: the first digest keeps the invariant. -/
theorem inv_finalizeDigest {s : State} (h : Inv s) (hm : s.blk.MODE = .hash) (hf : s.blk.FINALIZED = false) :
    Inv (finalizeDigest s) := by
  have hsp := h.sponge (by simp [hm])
  obtain ⟨⟨v, hv, hrate, hcap, houtlen⟩, hds, hphase, -, -, hnot⟩ := h.hash hm
  have hp : s.blk.PHASE = .absorbing := (h.hash hm).phase_absorbing hf
  obtain ⟨-, hempty⟩ := hnot hf
  obtain ⟨hlt, hfits⟩ := outlen_lt_of_mem_variantTable v hv
  rw [← houtlen, ← hrate] at hlt
  rw [← houtlen] at hfits
  rw [finalizeDigest_of_absorbing hp hsp.rateMax hlt, hempty]
  exact inv_of_hash hm (finpad_wf s) (Memory.wf_writeBytes (Memory.wf_nil _) 0 _ (by simpa using hfits)) h.errLegal
    h.hashDsbyte
    { rateMin := hsp.rateMin, rateMax := hsp.rateMax, sum := hsp.sum, acurLt := hsp.rateMin, scurLt := hlt,
      squeezingAcur := fun _ => rfl, absorbingScur := fun hp => (by cases hp), dsLegal := hsp.dsLegal }
    { row       := ⟨v, hv, hrate, hcap, houtlen⟩
      ds        := hds
      phase     := ⟨fun _ => rfl, fun _ => rfl⟩
      finCursor := fun _ => ⟨rfl, rfl⟩
      finDigest := fun _ => read_digest hfits
      notFin    := fun hf => by cases hf }

/-! ### Every step -/

/-- R46: a row that a variant code selects stands in the table. -/
theorem mem_variantTable_of_variantRow {var : Byte} {v : VariantRow} (h : variantRow var = some v) : v ∈ variantTable :=
  List.mem_of_getElem? h

/-- What a successful command performs keeps the invariant. -/
theorem inv_performs {i : Instr} {s u : State} {out : List Byte} (h : Inv s) (hu : Performs i s out u) : Inv u := by
  cases hu with
  | sinit hds hrc => exact inv_construct_raw h hds hrc
  | hinit hv => exact inv_absorb_hash (inv_construct_hash h (mem_variantTable_of_variantRow hv)) rfl rfl _
  | absorb hm hp => exact inv_absorb_raw h hm hp _
  | squeeze hm => exact inv_squeeze h hm _
  | update hm hf => exact inv_absorb_hash h hm hf _
  | finalize _ hm _ hf => exact inv_finalizeDigest h hm hf
  | report | stat => exact h
  | rbind => exact inv_of_psel_err h rfl h.errLegal rfl
  | drawInt _ _ hm => exact inv_squeeze h hm _
  | drawExt => exact inv_of_psel_err h rfl h.errLegal rfl

/-- R27, R33: every command keeps the invariant, whether it succeeds or fails. -/
theorem inv_exec {i : Instr} {s t : State} (h : Inv s) (hs : exec i s = .next t) : Inv t := by
  obtain ⟨e, -, rfl⟩ | ⟨-, out, u, hu, rfl⟩ := exec_next hs
  · exact inv_raise h e
  · exact inv_respond (inv_performs h hu) out

/-- Settles O10, by the three things a step can be: the reset event, a command, an undefined word. -/
theorem invariantKeptByEveryStep : Obligations.InvariantKeptByEveryStep := by
  intro s t h hs
  obtain ⟨-, rfl⟩ | ⟨-, i, rest, -, hi⟩ | ⟨-, w, rest, -, rfl⟩ := step_next hs
  · exact inv_of_blk_reset rfl h.hashDsbyte
  · exact inv_exec (inv_takeCommand h _ rest) hi
  · exact inv_raise (inv_takeCommand h _ rest) _

end Sys2Proof.Machine
end

section
/-! PROOFS. A step of the machine on the command stream: it takes one whole command, and a program runs to its end. -/

namespace Sys2Proof

/-! ### The command at the front of the stream (R77 to R81) -/

/-- R77, R78: only the words of the rows ABSORB, HINIT and UPDATE have a payload. -/
theorem matchRow_or_paylen_zero (w : Word) :
    matchRow w = some .absorb ∨ matchRow w = some .hinit ∨ matchRow w = some .update ∨ paylen w = 0 := by
  rw [matchRow_eq]
  by_cases habsorb : fieldOp w = 0x11
  · simp [habsorb]
  by_cases hhinit : fieldOp w = 0x20
  · simp [hhinit]
  by_cases hupdate : fieldOp w = 0x21
  · simp [hupdate]
  · exact .inr (.inr (.inr (by rw [paylen, if_neg (not_or.2 ⟨habsorb, hupdate⟩), if_neg hhinit])))

/-- R78, R81: an undefined word has no payload. -/
theorem paylen_of_matchRow_none {w : Word} (h : matchRow w = none) : paylen w = 0 := by
  simpa [h] using matchRow_or_paylen_zero w

/-- R80: the payload of the command read from a word and its payload is that payload. -/
theorem payload_assemble {w : Word} {op : Op} {data : List Byte} (h : matchRow w = some op)
    (hlen : data.length = paylen w) : (assemble op w data).payload = data := by
  have hrow := matchRow_or_paylen_zero w
  simp only [h, Option.some.injEq] at hrow
  obtain rfl | rfl | rfl | hzero := hrow
  · rfl
  · rfl
  · rfl
  · have hnil : data = [] := List.eq_nil_of_length_eq_zero (hlen.trans hzero)
    cases op <;> simp [assemble, Instr.payload, hnil]

/-- R70, R81: a word and its payload at the front of the stream decode to a command with that payload, or to an undefined
word. -/
theorem decode_front {w : Word} {data : List Byte} (hlen : data.length = paylen w) (rest : List Byte) :
    (∃ i, decode (wordBytes w ++ data ++ rest) = .command i rest ∧ i.payload.length = paylen w) ∨
    (decode (wordBytes w ++ data ++ rest) = .undefinedWord w rest ∧ paylen w = 0) := by
  rw [List.append_assoc, decode_wordBytes, decodeWord]
  cases hrow : matchRow w with
  | none =>
    have hzero := paylen_of_matchRow_none hrow
    have hnil : data = [] := List.eq_nil_of_length_eq_zero (hlen.trans hzero)
    exact .inr ⟨by rw [hnil]; rfl, hzero⟩
  | some op =>
    refine .inl ⟨assemble op w data, ?_, by rw [payload_assemble hrow hlen, hlen]⟩
    simp [← hlen]

namespace Machine

/-! ### One step -/

theorem step_of_command {s : State} {i : Instr} {rest : List Byte} (hr : s.resetPending = false)
    (hd : decode s.cmd = .command i rest) : step s = exec i (takeCommand (4 + i.payload.length) rest s) := by
  rw [step, if_neg (by simp [hr]), hd]

theorem step_of_undefinedWord {s : State} {w : Word} {rest : List Byte} (hr : s.resetPending = false)
    (hd : decode s.cmd = .undefinedWord w rest) : step s = .next (raise .illegalCommand (takeCommand 4 rest s)) := by
  rw [step, if_neg (by simp [hr]), hd]

/-- R223: where the stream is used up the block is idle. -/
theorem step_of_endOfStream {s : State} (hr : s.resetPending = false) (hc : s.cmd = []) :
    step s = .refused .noCommand := by
  rw [step, if_neg (by simp [hr]), hc, decode]

/-- Settles O6: the bytes that `takeCommand` takes, written out. -/
theorem stepRunsTheDecodedCommand : Obligations.StepRunsTheDecodedCommand := fun _ _ _ hr hd => step_of_command hr hd

/-- Settles O8: the elements of `Block.reset`, one by one. -/
theorem resetValuesOfEveryElement : Obligations.ResetValuesOfEveryElement :=
  ⟨Memory.read_nil, rfl, rfl, rfl, rfl, rfl, rfl, rfl, rfl, rfl, Memory.read_nil, rfl, rfl,
    fun s => ⟨resetEvent_blk s, resetEvent_ext s⟩⟩

/-- Settles O9: the block is at its reset values, and the default `HASH_DSBYTE` is legal. -/
theorem invariantHoldsAtReset : Obligations.InvariantHoldsAtReset := inv_of_blk_reset rfl (by decide)

/-- R39: no command touches the host's side of the port. -/
theorem exec_sameEnv {i : Instr} {s t : State} (h : exec i s = .next t) : SameEnv s t :=
  (whatCommandsLeaveAlone i s t h).1

/-- R42, R78, R187: a step on a word and its payload completes, leaves the rest of the stream and raises no reset. -/
theorem step_takes_command {s : State} {w : Word} {data rest : List Byte} (h : Inv s) (hr : s.resetPending = false)
    (hcmd : s.cmd = wordBytes w ++ data ++ rest) (hlen : data.length = paylen w) :
    ∃ t, step s = .next t ∧ t.cmd = rest ∧ t.cpos = s.cpos + 4 + paylen w ∧ t.resetPending = false := by
  obtain ⟨i, hd, hpay⟩ | ⟨hd, hpay⟩ := decode_front hlen rest
  · obtain ⟨t, ht⟩ := exec_completes (ready_of_inv (inv_takeCommand h (4 + i.payload.length) rest)) i
    obtain ⟨-, hc, hcpos, hreset⟩ := exec_sameEnv ht
    refine ⟨t, ?_, hc, ?_, hreset.trans hr⟩
    · rw [step_of_command hr (hcmd ▸ hd), ht]
    · rw [hcpos, takeCommand_cpos, hpay, Nat.add_assoc]
  · refine ⟨raise .illegalCommand (takeCommand 4 rest s), ?_, rfl, ?_, hr⟩
    · exact step_of_undefinedWord hr (hcmd ▸ hd)
    · rw [hpay]
      rfl

/-- Settles O16, by what stands at the front of the stream: a command, or an undefined word. -/
theorem stepTakesTheWholeCommand : Obligations.StepTakesTheWholeCommand := by
  intro s w data rest h hr hcmd hlen
  obtain ⟨t, hstep, hrest, hcpos, -⟩ := step_takes_command h hr hcmd hlen
  exact ⟨t, hstep, hrest, hcpos⟩

/-! ### Runs -/

/-- A run of one more step. -/
theorem run_succ {M : Host.Core} {s t : M.State} (h : M.step s = .next t) (k : Nat) : M.run (k + 1) s = M.run k t := by
  rw [Host.Core.run, h]

/-- Settles O13, by induction over the commands of the stream: each is one step, which keeps the invariant. -/
theorem programsRunToTheirEnd : Obligations.ProgramsRunToTheirEnd := by
  rintro s ⟨hinv, hwf⟩ hr
  generalize hcmd : s.cmd = bytes at hwf ⊢
  induction hwf generalizing s with
  | done => exact ⟨0, s, rfl, hinv, hcmd, rfl, le_rfl, step_of_endOfStream hr hcmd⟩
  | more w data rest hlen _ ih =>
    obtain ⟨t, hstep, hrest, hcpos, hreset⟩ := step_takes_command hinv hr hcmd hlen
    obtain ⟨k, u, hrun, hinvU, hdone, hend, hsteps, hidle⟩ :=
      ih t (invariantKeptByEveryStep s t hinv hstep) hreset hrest
    refine ⟨k + 1, u, (run_succ (M := core) hstep k).trans hrun, hinvU, hdone, ?_, ?_, hidle⟩
    · simp only [hend, hcpos, List.length_append, length_wordBytes, hlen]
      omega
    · simp only [List.length_append, length_wordBytes]
      omega

end Machine

end Sys2Proof
end

section
/-! PROOFS. Progress and preservation on a well-formed command stream: the reset event leaves the stream as it is, and any
other step takes exactly its first command. -/

namespace Sys2Proof.Machine

/-- R210: a pending reset is the next step. -/
theorem step_of_resetPending {s : State} (hr : s.resetPending = true) : step s = .next (resetEvent s) := by
  rw [step, if_pos hr]

/-- R90: a well-formed command stream that is not used up begins with a word and its payload, and a well-formed command
stream follows them. -/
theorem exists_front_of_wellFormedStream {bytes : List Byte} (h : WellFormedStream bytes) (hne : bytes ≠ []) :
    ∃ w data rest, bytes = wordBytes w ++ data ++ rest ∧ data.length = paylen w ∧ WellFormedStream rest := by
  cases h with
  | done => exact absurd rfl hne
  | more w data rest hlen hrest => exact ⟨w, data, rest, rfl, hlen, hrest⟩

/-- R58, R90, R210: a step from a runnable state completes and leaves a well-formed command stream. -/
theorem step_progress {s : State} (h : Runnable s) (hgo : s.resetPending = true ∨ s.cmd ≠ []) :
    ∃ t, step s = .next t ∧ WellFormedStream t.cmd := by
  obtain ⟨hinv, hwf⟩ := h
  cases hr : s.resetPending with
  | true => exact ⟨resetEvent s, step_of_resetPending hr, hwf⟩
  | false =>
    have hne : s.cmd ≠ [] := hgo.resolve_left (by simp [hr])
    obtain ⟨w, data, rest, hcmd, hlen, hrest⟩ := exists_front_of_wellFormedStream hwf hne
    obtain ⟨t, hstep, hleft, -, -⟩ := step_takes_command hinv hr hcmd hlen
    exact ⟨t, hstep, hleft ▸ hrest⟩

/-- Settles O12: the step completes by `step_progress`, and like every step it keeps the invariant. -/
theorem programsNeverGetStuck : Obligations.ProgramsNeverGetStuck := by
  intro s h hgo
  obtain ⟨t, hstep, hwf⟩ := step_progress h hgo
  exact ⟨t, hstep, invariantKeptByEveryStep s t h.1 hstep, hwf⟩

end Sys2Proof.Machine
end

section
/-! PROOFS. The round trip of the encoding: the row a word matches from its opcode and its reserved bits, and that decoding
and encoding undo each other. -/

namespace Sys2Proof

/-! ### The row of a word (R75 to R77, R81) -/

/-- R77: the opcode byte of a row. -/
def opcodeOf : Op → Byte
  | .sinit       => 0x10
  | .absorb      => 0x11
  | .squeeze     => 0x12
  | .hinit       => 0x20
  | .update      => 0x21
  | .digest      => 0x22
  | .hexdigest   => 0x23
  | .rbind       => 0x30
  | .getrandbits => 0x31
  | .random      => 0x32
  | .stat        => 0x40

/-- R75, R76: the bits that a format N or a format B opcode reserves are zero. -/
def ReservedClear (w : Word) : Prop :=
  (fieldOp w ∈ [0x22, 0x23, 0x32, 0x40] → fieldN w = 0) ∧ (fieldOp w = 0x30 → w.extractLsb' 1 23 = 0)

theorem mem_opcodes_iff (b : Byte) :
    b ∈ [0x10, 0x11, 0x12, 0x20, 0x21, 0x22, 0x23, 0x30, 0x31, 0x32, 0x40] ↔ ∃ op, b = opcodeOf op := by
  constructor
  · intro h
    simp only [List.mem_cons, List.not_mem_nil, or_false] at h
    obtain h | h | h | h | h | h | h | h | h | h | h := h
    exacts [⟨.sinit, h⟩, ⟨.absorb, h⟩, ⟨.squeeze, h⟩, ⟨.hinit, h⟩, ⟨.update, h⟩, ⟨.digest, h⟩, ⟨.hexdigest, h⟩,
      ⟨.rbind, h⟩, ⟨.getrandbits, h⟩, ⟨.random, h⟩, ⟨.stat, h⟩]
  · rintro ⟨op, rfl⟩
    cases op <;> decide

/-- R76: the low 24 bits of a word are the 23 bits that format B reserves and the bit `psel`. -/
theorem fieldN_eq_append (w : Word) : fieldN w = (w.extractLsb' 1 23 ++ w.extractLsb' 0 1 : BitVec (23 + 1)) := by
  rw [BitVec.extractLsb'_append_extractLsb'_eq_extractLsb' (by rfl)]
  rfl

theorem mask_reserved_bind (w : Word) : fieldN w &&& 0xFFFFFE = 0 ↔ w.extractLsb' 1 23 = 0 := by
  rw [fieldN_eq_append, show (0xFFFFFE : BitVec 24) = (BitVec.allOnes 23 ++ 0#1 : BitVec (23 + 1)) from rfl,
    BitVec.and_append, BitVec.and_allOnes, BitVec.and_zero]
  exact BitVec.append_left_inj (0#1) (s₂ := 0#23)

/-- R77, R81: a word whose opcode is of no row is undefined. -/
theorem matchRow_of_no_opcode {w : Word} (h : ¬∃ op, fieldOp w = opcodeOf op) : matchRow w = none := by
  rw [← mem_opcodes_iff] at h
  simp only [List.mem_cons, List.not_mem_nil, or_false, not_or] at h
  simp only [matchRow_eq, h, false_and, if_false]

/-- R75 to R77: the only row a word with the opcode of a row can be of is that one, and it is unless it sets a reserved
bit. -/
theorem matchRow_of_opcode {w : Word} {op : Op} (h : fieldOp w = opcodeOf op) (op' : Op) :
    matchRow w = some op' ↔ op = op' ∧ ReservedClear w := by
  simp only [matchRow_eq, mask_reserved_bind, ReservedClear, h]
  cases op <;> simp [opcodeOf, and_comm]

/-- R75 to R77: a word is of a row when it has the row's opcode and its reserved bits are zero. -/
theorem matchRow_eq_some_iff (w : Word) (op : Op) :
    matchRow w = some op ↔ fieldOp w = opcodeOf op ∧ ReservedClear w := by
  constructor
  · intro h
    by_cases hop : ∃ op', fieldOp w = opcodeOf op'
    · obtain ⟨op', hop⟩ := hop
      obtain ⟨rfl, hclear⟩ := (matchRow_of_opcode hop op).1 h
      exact ⟨hop, hclear⟩
    · simp [matchRow_of_no_opcode hop] at h
  · rintro ⟨hop, hclear⟩
    exact (matchRow_of_opcode hop op).2 ⟨rfl, hclear⟩

/-- R81: the undefined words are those of no row's opcode and those with a reserved bit set. -/
theorem matchRow_eq_none_iff (w : Word) :
    matchRow w = none ↔ (¬∃ op, fieldOp w = opcodeOf op) ∨ ¬ReservedClear w := by
  rw [Option.eq_none_iff_forall_ne_some, ← not_and_or, ← exists_and_right, not_exists]
  exact forall_congr' fun op => not_congr (matchRow_eq_some_iff w op)

/-! ### The fields make the word again (R72 to R76) -/

theorem formatL_fields {w : Word} {op : Byte} (h : fieldOp w = op) : formatL op (fieldN w) = w :=
  h ▸ (word_eq_append w).symm

theorem formatC_fields {w : Word} {op : Byte} (h : fieldOp w = op) :
    formatC op (fieldHi w) (fieldCap w) (fieldRate w) = w :=
  h ▸ wordOfBytes_extract w

theorem formatV_fields {w : Word} {op : Byte} (h : fieldOp w = op) : formatV op (fieldHi w) (fieldHlen w) = w := by
  subst h
  unfold formatV fieldOp fieldHi fieldHlen
  rw [BitVec.extractLsb'_append_extractLsb'_eq_extractLsb' (by rfl),
    BitVec.extractLsb'_append_extractLsb'_eq_extractLsb' (by rfl)]
  simp

theorem formatN_fields {w : Word} {op : Byte} (h : fieldOp w = op) (hN : fieldN w = 0) : formatN op = w :=
  word_ext_iff.2 ⟨(fieldOp_formatN op).trans h.symm, (fieldN_formatN op).trans hN.symm⟩

theorem formatB_fields {w : Word} {op : Byte} (h : fieldOp w = op) (hB : w.extractLsb' 1 23 = 0) :
    formatB op (fieldPsel w) = w := by
  refine word_ext_iff.2 ⟨(fieldOp_formatB op _).trans h.symm, ?_⟩
  have hbit : w.extractLsb' 0 1 = BitVec.ofBool (w.getLsbD 0) := by
    ext i hi
    simp [Nat.lt_one_iff.1 hi]
  rw [fieldN_formatB, fieldN_eq_append, hB, hbit, fieldPsel]
  cases w.getLsbD 0 <;> rfl

/-! ### The two directions (R70 to R80) -/

/-- Settles O2: the word of the command matches the command's row, spells its payload's length and holds its operands. -/
theorem decodeOfEncode : Obligations.DecodeOfEncode := by
  intro i rest hwf
  rw [encode, List.append_assoc, decode_wordBytes, decodeWord, matchRow_encodeWord]
  simp [paylen_encodeWord hwf, assemble_encodeWord]

/-- R70, R85: what stands at the front of a stream that decodes to a command. -/
theorem decode_eq_command {bytes : List Byte} {i : Instr} {rest : List Byte} (h : decode bytes = .command i rest) :
    ∃ w op data, bytes = wordBytes w ++ data ++ rest ∧ matchRow w = some op ∧ data.length = paylen w ∧
      i = assemble op w data := by
  match bytes with
  | b3 :: b2 :: b1 :: b0 :: tail =>
    rw [decode, decodeWord] at h
    cases hrow : matchRow (wordOfBytes b3 b2 b1 b0) with
    | none => simp [hrow] at h
    | some op =>
      simp only [hrow] at h
      split_ifs at h with hlen
      cases h
      refine ⟨_, op, _, ?_, hrow, List.length_take_of_le hlen, rfl⟩
      rw [List.append_assoc, List.take_append_drop, wordBytes_wordOfBytes]
      rfl
  | [] | [_] | [_, _] | [_, _, _] => cases h

/-- R72, R78: the payload length of ABSORB and UPDATE. -/
theorem paylen_of_formatL {w : Word} (h : fieldOp w = 0x11 ∨ fieldOp w = 0x21) : paylen w = (fieldN w).toNat := if_pos h

/-- R74, R78: the payload length of HINIT. -/
theorem paylen_of_formatV {w : Word} (h : fieldOp w = 0x20) : paylen w = (fieldHlen w).toNat := by simp [paylen, h]

/-- R72, R74: what is read from a word and the payload it spells fits its length field. -/
theorem wellFormed_assemble {w : Word} {op : Op} {data : List Byte} (hrow : matchRow w = some op)
    (hlen : data.length = paylen w) : (assemble op w data).wellFormed = true := by
  obtain ⟨hop, -⟩ := (matchRow_eq_some_iff w op).1 hrow
  cases op with
  | absorb => exact decide_eq_true (hlen.trans (paylen_of_formatL (.inl hop)) ▸ (fieldN w).isLt)
  | update => exact decide_eq_true (hlen.trans (paylen_of_formatL (.inr hop)) ▸ (fieldN w).isLt)
  | hinit => exact decide_eq_true (hlen.trans (paylen_of_formatV hop) ▸ (fieldHlen w).isLt)
  | _ => rfl

/-- R72 to R77: the command read from a word and its payload has that word. -/
theorem encodeWord_assemble {w : Word} {op : Op} {data : List Byte} (hrow : matchRow w = some op)
    (hlen : data.length = paylen w) : encodeWord (assemble op w data) = w := by
  obtain ⟨hop, hN, hB⟩ := (matchRow_eq_some_iff w op).1 hrow
  cases op with
  | sinit => exact formatC_fields hop
  | absorb =>
    rw [assemble, encodeWord, hlen, paylen_of_formatL (.inl hop), BitVec.ofNat_toNat, BitVec.setWidth_eq]
    exact formatL_fields hop
  | update =>
    rw [assemble, encodeWord, hlen, paylen_of_formatL (.inr hop), BitVec.ofNat_toNat, BitVec.setWidth_eq]
    exact formatL_fields hop
  | hinit =>
    rw [assemble, encodeWord, hlen, paylen_of_formatV hop, BitVec.ofNat_toNat, BitVec.setWidth_eq]
    exact formatV_fields hop
  | squeeze | getrandbits => exact formatL_fields hop
  | digest | hexdigest | random | stat => exact formatN_fields hop (hN (by rw [hop]; decide))
  | rbind => exact formatB_fields hop (hB hop)

/-- Settles O3: the command's word is the word it was read from, and its payload the payload. -/
theorem encodeOfDecode : Obligations.EncodeOfDecode := by
  intro bytes i rest h
  obtain ⟨w, op, data, rfl, hrow, hlen, rfl⟩ := decode_eq_command h
  exact ⟨wellFormed_assemble hrow hlen, by rw [encode, encodeWord_assemble hrow hlen, payload_assemble hrow hlen]⟩

/-- Settles O1: the decoder run on the eleven words. -/
theorem opcodeWordsDecode : Obligations.OpcodeWordsDecode := by
  unfold Obligations.OpcodeWordsDecode
  decide

/-! ### Rows do not overlap (R77) -/

/-- R77: every row's mask covers the opcode. -/
theorem fieldOp_of_row {w : Word} {r : OpcodeRow} (hr : r ∈ opcodeTable) (hw : w &&& r.mask = r.pat) :
    fieldOp w = fieldOp r.pat := by
  have hmask : ∀ r ∈ opcodeTable, fieldOp r.mask = BitVec.allOnes 8 := by decide
  have hand : fieldOp (w &&& r.mask) = fieldOp w &&& fieldOp r.mask := BitVec.extractLsb'_and
  rw [← hw, hand, hmask r hr, BitVec.and_allOnes]

/-- Settles O4: two rows that match one word have its opcode, and the rows' opcodes differ. -/
theorem opcodeRowsAreDisjoint : Obligations.OpcodeRowsAreDisjoint := by
  intro w r q hr hq hwr hwq
  have hdistinct : ∀ r ∈ opcodeTable, ∀ q ∈ opcodeTable, fieldOp r.pat = fieldOp q.pat → r = q := by decide
  exact hdistinct r hr q hq ((fieldOp_of_row hr hwr).symm.trans (fieldOp_of_row hq hwq))

/-! ### Undefined words (R81) -/

/-- Settles O5: a word is undefined by its opcode or by a reserved bit, and a step on it raises `IllegalCommand`. -/
theorem undefinedWordsFail : Obligations.UndefinedWordsFail := by
  intro w
  constructor
  · rw [matchRow_eq_none_iff, mem_opcodes_iff, ReservedClear, not_and_or, Classical.not_imp, Classical.not_imp]
    rfl
  · intro hrow
    refine ⟨paylen_of_matchRow_none hrow, fun s rest hr hcmd => ?_⟩
    have hd : decode s.cmd = .undefinedWord w rest := by rw [hcmd, decode_wordBytes, decodeWord, hrow]
    exact Machine.step_of_undefinedWord hr hd

end Sys2Proof
end

section
/-! PROOFS. What a step answers: one response for a command or an undefined word, with the length of R87 where the command
succeeds, and a refusal for a truncated stream. -/

namespace Sys2Proof

/-! ### Truncated streams (R90) -/

/-- R90: what stands at the front of a well-formed command stream is not truncated. -/
theorem decode_of_wellFormedStream {bytes : List Byte} (h : WellFormedStream bytes) :
    (∃ i rest, decode bytes = .command i rest) ∨ (∃ w rest, decode bytes = .undefinedWord w rest) ∨
    decode bytes = .endOfStream := by
  cases h with
  | done => exact .inr (.inr rfl)
  | more w data rest hlen _ =>
    obtain ⟨i, hd, -⟩ | ⟨hd, -⟩ := decode_front hlen rest
    · exact .inl ⟨i, rest, hd⟩
    · exact .inr (.inl ⟨w, rest, hd⟩)

theorem decode_of_length_lt_four {bytes : List Byte} (hpos : 0 < bytes.length) (hlt : bytes.length < 4) :
    decode bytes = .truncatedWord := by
  match bytes with
  | [] => cases hpos
  | [_] | [_, _] | [_, _, _] => rfl
  | _ :: _ :: _ :: _ :: tail =>
    simp only [List.length_cons] at hlt
    omega

theorem decode_of_length_lt_paylen {w : Word} {data : List Byte} (hlt : data.length < paylen w) :
    decode (wordBytes w ++ data) = .truncatedPayload w := by
  rw [decode_wordBytes, decodeWord]
  cases hrow : matchRow w with
  | none => simp [paylen_of_matchRow_none hrow] at hlt
  | some op => exact if_neg (Nat.not_le.2 hlt)

namespace Machine

theorem step_of_truncatedWord {s : State} (hr : s.resetPending = false) (hd : decode s.cmd = .truncatedWord) :
    step s = .refused .truncatedWord := by
  rw [step, if_neg (by simp [hr]), hd]

theorem step_of_truncatedPayload {s : State} {w : Word} (hr : s.resetPending = false)
    (hd : decode s.cmd = .truncatedPayload w) : step s = .refused .truncatedPayload := by
  rw [step, if_neg (by simp [hr]), hd]

/-- Settles O14: a truncated stream decodes to a truncation, and a well-formed one does not. -/
theorem truncatedStreamsAreRefused : Obligations.TruncatedStreamsAreRefused := by
  intro s hr
  constructor
  · intro hpos hlt
    have hd := decode_of_length_lt_four hpos hlt
    exact ⟨fun hwf => by simpa [hd] using decode_of_wellFormedStream hwf, step_of_truncatedWord hr hd⟩
  · intro w data hcmd hlt
    have hd : decode s.cmd = .truncatedPayload w := hcmd ▸ decode_of_length_lt_paylen hlt
    exact ⟨fun hwf => by simpa [hd] using decode_of_wellFormedStream hwf, step_of_truncatedPayload hr hd⟩

/-! ### Responses (R86, R87) -/

/-- R86: `t` responds once more than `s`: a status byte of R181, and output only where it is OK. -/
def RespondsOnce (s t : State) : Prop :=
  ∃ (status : Byte) (out : List Byte), t.resp = s.resp ++ status :: out ∧
    (status = 0x00 ∨ status = 0x01 ∨ status = 0x02 ∨ status = 0x03) ∧ (status ≠ 0x00 → out = [])

theorem respondsOnce_raise (e : Error) (s : State) : RespondsOnce s (raise e s) :=
  ⟨e.code, [], rfl, by cases e <;> simp [Error.code], fun _ => rfl⟩

/-- R36, R86: what a successful command answers. -/
theorem Performs.resp_respond {i : Instr} {s u : State} {out : List Byte} (h : Performs i s out u) :
    (respond out u).resp = s.resp ++ 0x00 :: out := by
  rw [respond_resp, h.resp_err.1]
  rfl

theorem respondsOnce_exec {i : Instr} {s t : State} (h : exec i s = .next t) : RespondsOnce s t := by
  obtain ⟨e, -, rfl⟩ | ⟨-, out, u, hu, rfl⟩ := exec_next h
  · exact respondsOnce_raise e s
  · exact ⟨0x00, out, hu.resp_respond, .inl rfl, fun hne => absurd rfl hne⟩

/-- R42: taking a command off the stream responds nothing. -/
theorem respondsOnce_of_takeCommand {len : Nat} {rest : List Byte} {s t : State}
    (h : RespondsOnce (takeCommand len rest s) t) : RespondsOnce s t := h

/-- Settles O15: a step that is no reset takes a command and runs it, or takes an undefined word and raises an error. -/
theorem oneResponsePerCommand : Obligations.OneResponsePerCommand := by
  intro s t hr h
  obtain ⟨hreset, -⟩ | ⟨-, i, rest, -, hi⟩ | ⟨-, w, rest, -, rfl⟩ := step_next h
  · simp [hr] at hreset
  · exact respondsOnce_of_takeCommand (respondsOnce_exec hi)
  · exact respondsOnce_of_takeCommand (respondsOnce_raise .illegalCommand _)

theorem outputLength_digestText {i : Instr} {text : List Byte → List Byte} (hi : DigestText i text) (b : Block)
    {d : List Byte} (hd : d.length = b.OUTLEN.toNat) : (text d).length = outputLength i b := by
  cases hi with
  | digest => exact hd
  | hexdigest => exact (length_hex d).trans (congrArg (2 * ·) hd)

theorem outputLength_draws {i : Instr} {n : Nat} {f : Nat → List Byte} (hi : Draws i n f) (b : Block) (v : Nat) :
    (f v).length = outputLength i b := by
  cases hi with
  | getrandbits => exact length_beBytes _ _
  | random => exact length_f64 _

/-- R87: the output of a successful command has the length of the table. -/
theorem Performs.length_output {i : Instr} {s u : State} {out : List Byte} (h : Performs i s out u) :
    out.length = outputLength i s.blk := by
  cases h with
  | sinit | hinit | absorb | update | rbind | stat => rfl
  | squeeze => exact length_squeeze _ _
  | finalize hi =>
    exact outputLength_digestText hi s.blk (by rw [length_digestBytes, (finalizeDigest_sameConfig s).outlen])
  | report hi => exact outputLength_digestText hi s.blk (length_digestBytes s.blk)
  | drawInt hi | drawExt hi => exact outputLength_draws hi s.blk _

/-- Settles O17: under the invariant a command without an error performs its effect, and it responds with its output. -/
theorem successfulCommandsComplete : Obligations.SuccessfulCommandsComplete := by
  intro i s h he
  obtain ⟨out, u, hu⟩ | ⟨hnot, -⟩ := performsOrFaults he
  · exact ⟨respond out u, out, exec_of_performs hu, hu.resp_respond, hu.length_output, hu.resp_err.2⟩
  · exact absurd (ready_of_inv h) hnot

end Machine

end Sys2Proof
end

section
/-! PROOFS. The commands of the Sponge one by one: what they are sent as, how they fail, and what they leave of the
whole machine. -/

namespace Sys2Proof.Machine

/-! ### What the commands do on a Sponge (R101, R103, R107) -/

/-- R26, R82. -/
theorem dsReserved_iff (ds : Byte) : dsReserved ds = true ↔ ds = 0x00 ∨ 0x80 ≤ ds.toNat := by simp [dsReserved]

theorem dsReserved_eq_false_iff (ds : Byte) : dsReserved ds = false ↔ ds ≠ 0x00 ∧ ds.toNat < 0x80 := by
  rw [← Bool.not_eq_true, dsReserved_iff, not_or, Nat.not_le]

/-- R101. -/
theorem rateCapOk_iff (rate cap : Byte) :
    rateCapOk rate cap = true ↔ rate ≠ 0 ∧ cap ≠ 0 ∧ rate.toNat + cap.toNat = 200 := by
  have hpos (b : Byte) : 1 ≤ b.toNat ↔ b ≠ 0 := by
    rw [Nat.one_le_iff_ne_zero, Ne, Ne, ← BitVec.toNat_inj]
    rfl
  simp [rateCapOk, hpos, and_assoc]

/-- R101: an SINIT that passes the checks constructs. -/
theorem exec_sinit {rate cap ds : Byte} (hds : dsReserved ds = false) (hrc : rateCapOk rate cap = true) (s : State) :
    exec (.sinit rate cap ds) s = .next (respond [] (construct .raw rate cap ds 0 s)) :=
  exec_of_performs (.sinit hds hrc)

/-- R103: an ABSORB on an absorbing RAW block runs `AB`. -/
theorem exec_absorb {s : State} (hr : spongeReady s.blk = true) (hm : s.blk.MODE = .raw)
    (hp : s.blk.PHASE = .absorbing) (data : List Byte) :
    exec (.absorb data) s = .next (respond [] (absorb data s)) := exec_of_performs (.absorb hm hp hr)

/-- R107: a SQUEEZE on a RAW block runs `SQ`. -/
theorem exec_squeeze {s : State} (hr : spongeReady s.blk = true) (hm : s.blk.MODE = .raw) (n : BitVec 24) :
    exec (.squeeze n) s = .next (respond (squeeze n.toNat s).1 (squeeze n.toNat s).2) :=
  exec_of_performs (.squeeze hm hr)

theorem spongeReady_of_raw {s : State} (h : Inv s) (hm : s.blk.MODE = .raw) : spongeReady s.blk = true :=
  (ready_of_inv h).sponge_of_raw hm

/-- R71, R79: a command word is sent as its opcode and the three bytes of its low 24 bits. -/
theorem wordBytes_eq (w : Word) : wordBytes w = fieldOp w :: beBytes (fieldN w).toNat 3 := by
  simp only [wordBytes, fieldOp, beBytes, List.cons.injEq, and_true, true_and]
  refine ⟨?_, ?_, ?_⟩ <;>
  · apply BitVec.eq_of_toNat_eq
    simp only [fieldN, BitVec.extractLsb'_toNat, BitVec.toNat_ofNat, Nat.shiftRight_eq_div_pow]
    omega

/-- R72, R79: the bytes of a format L word. -/
theorem wordBytes_formatL (op : Byte) (n : BitVec 24) : wordBytes (formatL op n) = op :: beBytes n.toNat 3 := by
  rw [wordBytes_eq, fieldOp_formatL, fieldN_formatL]

/-- R73, R79: the bytes of a format C word. -/
theorem wordBytes_formatC (op ds cap rate : Byte) : wordBytes (formatC op ds cap rate) = [op, ds, cap, rate] :=
  wordBytes_wordOfBytes op ds cap rate

/-- R72: a length that does not fit its field is sent as its low 24 bits, like its three bytes. -/
theorem beBytes_ofNat_toNat (v : Nat) : beBytes (BitVec.ofNat 24 v).toNat 3 = beBytes v 3 :=
  beBytes_congr (by rw [BitVec.toNat_ofNat]; exact Nat.mod_mod _ _)

/-- Settles O24, by the checks of SINIT in their order. -/
theorem sinitConstructsASponge : Obligations.SinitConstructsASponge := by
  intro rate cap ds s
  refine ⟨?_, fun hres => ?_, fun hds hlt hbad => ?_, fun hds hlt hrate hcap hsum => ?_⟩
  · rw [encode, encodeWord, wordBytes_formatC]
    rfl
  · exact exec_of_errorOf (e := .illegalCommand) (by rw [errorOf_sinit, if_pos ((dsReserved_iff ds).2 hres)])
  · have hds := (dsReserved_eq_false_iff ds).2 ⟨hds, hlt⟩
    have hrc : ¬rateCapOk rate cap = true := by
      rw [rateCapOk_iff]
      tauto
    exact exec_of_errorOf (e := .configurationError) (by rw [errorOf_sinit, if_neg (by simp [hds]), if_neg hrc])
  · exact exec_sinit ((dsReserved_eq_false_iff ds).2 ⟨hds, hlt⟩) ((rateCapOk_iff rate cap).2 ⟨hrate, hcap, hsum⟩) s

/-! ### Whole states after `AB` and `SQ` -/

/-- Two machines are equal when their parts are. -/
theorem state_ext {s t : State} (hblk : s.blk = t.blk) (hpar : s.par = t.par) (hext : s.ext = t.ext)
    (hcmd : s.cmd = t.cmd) (hcpos : s.cpos = t.cpos) (hresp : s.resp = t.resp)
    (hcalls : s.permuteCalls = t.permuteCalls) (hreset : s.resetPending = t.resetPending) : s = t := by
  cases s
  cases t
  simp_all

/-- R102: of the whole machine, `AB` changes `S`, `ACUR` and the count of permutations. -/
theorem absorb_frame (data : List Byte) (s : State) :
    absorb data s = { s with
      blk := { s.blk with S := (absorb data s).blk.S, ACUR := (absorb data s).blk.ACUR }
      permuteCalls := (absorb data s).permuteCalls } :=
  state_ext (absorb_blk data s) (absorb_par data s) (absorb_ext data s) (absorb_cmd data s) (absorb_cpos data s)
    (absorb_resp data s) rfl (absorb_resetPending data s)

/-- R106: of the whole machine, `SQ` changes `S`, the cursors, `PHASE` and the count of permutations. -/
theorem squeeze_frame {s : State} (h : SpongeInv s.blk) (n : Nat) :
    (squeeze n s).2 = { s with
      blk := { s.blk with
        S := (squeeze n s).2.blk.S, ACUR := 0, SCUR := (squeeze n s).2.blk.SCUR, PHASE := .squeezing }
      permuteCalls := (squeeze n s).2.permuteCalls } := by
  obtain ⟨hpar, hext, hcmd, hcpos, hresp, hreset⟩ := squeeze_env n s
  refine state_ext ?_ hpar hext hcmd hcpos hresp rfl hreset
  rw [← squeeze_ACUR h n]
  exact squeeze_blk n s

/-- R106, R107: an absorbing sponge has not squeezed, so its squeeze cursor stands where the finalization puts it. -/
theorem finalizeSponge_SCUR {s : State} (h : SpongeInv s.blk) : (finalizeSponge s).blk.SCUR = s.blk.SCUR := by
  cases hp : s.blk.PHASE with
  | absorbing => rw [finalizeSponge, if_pos hp, finpad_blk, h.absorbingScur hp]
  | squeezing => rw [finalizeSponge_of_squeezing hp]

/-- R107: where the cursor and the count of permutations stand after `SQ`. -/
theorem squeeze_cursor {s : State} (h : SpongeInv s.blk) (n : Nat) :
    (squeeze n s).2.blk.SCUR.toNat = (s.blk.SCUR.toNat + n) % s.blk.RATE.toNat ∧
    (squeeze n s).2.permuteCalls = s.permuteCalls + (if s.blk.PHASE = .absorbing then 1 else 0) +
      (s.blk.SCUR.toNat + n) / s.blk.RATE.toNat := by
  have hr : spongeReady s.blk = true := (spongeReady_iff _).2 ⟨h.rateMax, h.acurLt, h.scurLt⟩
  have hcur := squeezeEnd_cursor (finalizeSponge_ready hr) n
  rwa [finalizeSponge_SCUR h, finalizeSponge_RATE, finalizeSponge_permuteCalls] at hcur

/-- Settles O25: the tables' errors, and what the laws of `AB` say. -/
theorem absorbFeedsTheSponge : Obligations.AbsorbFeedsTheSponge := by
  intro data s
  refine ⟨?_, fun hm => ?_, fun hm hp => ?_, fun h hm hp => ?_⟩
  · rw [encode, encodeWord, wordBytes_formatL, beBytes_ofNat_toNat]
    rfl
  · exact exec_of_errorOf (e := .illegalCommand) (by rw [errorOf_absorb, if_neg hm])
  · exact exec_of_errorOf (e := .stateError) (by rw [errorOf_absorb, if_pos hm, if_neg (by simp [hp])])
  · have hr := spongeReady_of_raw h hm
    obtain ⟨hcur, hcalls⟩ := absorb_cursor hr data
    refine ⟨_, exec_absorb hr hm hp data, ?_, hcur, hcalls, absorb_within_block hr h.sWf data⟩
    conv_lhs => rw [absorb_frame]
    rfl

/-- Settles O30: the table's error, and what the laws of `SQ` say. -/
theorem squeezeReturnsTheNextBytes : Obligations.SqueezeReturnsTheNextBytes := by
  intro n s
  refine ⟨?_, fun hm => ?_, fun h hm => ?_⟩
  · rw [encode, encodeWord, wordBytes_formatL]
    exact List.append_nil _
  · exact exec_of_errorOf (e := .illegalCommand) (by rw [errorOf_squeeze, if_neg hm])
  · have hr := spongeReady_of_raw h hm
    have hsp := h.sponge (by simp [hm])
    obtain ⟨hcur, hcalls⟩ := squeeze_cursor hsp n.toNat
    refine ⟨_, _, exec_squeeze hr hm n, length_squeeze n.toNat s, ?_, hcur, hcalls, fun hp hin => ?_⟩
    · conv_lhs => rw [squeeze_frame hsp]
      rfl
    · rw [respond_blk, squeeze_snd, squeeze_fst, finalizeSponge_of_squeezing hp]
      exact squeeze_within_block hr n.toNat hin

/-- Settles O34: inside the block O30 names the bytes that a request reads, and O25 the bytes that input changes. -/
theorem capacityIsNeverExposed : Obligations.CapacityIsNeverExposed := by
  constructor
  · intro n s t S' h h' hm hp hagree hin ht
    obtain ⟨t₀, out, ht₀, -, hframe, -, -, hblock⟩ := (squeezeReturnsTheNextBytes n s).2.2 h hm
    obtain ⟨u, out', hu, -, hframe', -, -, hblock'⟩ := (squeezeReturnsTheNextBytes n _).2.2 h' hm
    obtain ⟨hout, -⟩ := hblock hp hin
    obtain ⟨hout', hS'⟩ := hblock' hp hin
    cases ht.symm.trans ht₀
    have hsame : out' = out := by
      rw [hout, hout']
      exact List.map_congr_left fun j hj => hagree _ ((Nat.add_lt_add_left (List.mem_range.1 hj) _).trans hin)
    refine ⟨u, hu, ?_, fun a _ => by rw [hS']⟩
    rw [hframe, hframe', hsame]
  · intro data s t h hm hp hin ht a ha
    obtain ⟨t₀, ht₀, -, -, -, hread⟩ := (absorbFeedsTheSponge data s).2.2.2 h hm hp
    cases ht.symm.trans ht₀
    rw [hread hin, if_neg (by omega)]

end Sys2Proof.Machine
end

section
/-! PROOFS. The blocks of the Sponge's steps: the byte that fills a block, the padding as absorbed bytes, and the
squeeze loop in the spec's rounds. -/

namespace Sys2Proof.Machine

/-! ### Reading a store after one write -/

theorem Memory.readBytes_write {m : Memory} {size : Nat} (h : m.wf size = true) (i : Nat) (v : Byte) (n : Nat) :
    (m.write i v).readBytes 0 n = (List.range n).map fun a => if a = i then v else m.read a := by
  simp only [Memory.readBytes, Memory.read_write h, Nat.zero_add]

/-- Writing back what an index reads as changes nothing. -/
theorem Memory.write_read {m : Memory} {size : Nat} (h : m.wf size = true) {i : Nat} (hi : i < size) :
    m.write i (m.read i) = m := by
  refine Memory.eq_of_read_eq (Memory.wf_write h _ hi) h fun a => ?_
  rw [Memory.read_write h]
  split_ifs with ha
  · rw [ha]
  · rfl

/-! ### The absorb step inside a block and at its end (R102) -/

theorem absorbByte_inside {s : State} (h : spongeReady s.blk = true) (hin : s.blk.ACUR.toNat + 1 < s.blk.RATE.toNat)
    (x : Byte) : absorbByte s x = setAcur (s.blk.ACUR + 1) (xorS s.blk.ACUR.toNat x s) := by
  obtain ⟨hmax, ha, -⟩ := (spongeReady_iff _).1 h
  exact if_neg (by rw [(cursor_succ hmax ha).2]; omega)

theorem absorbByte_boundary {s : State} (h : spongeReady s.blk = true)
    (hend : s.blk.ACUR.toNat + 1 = s.blk.RATE.toNat) (x : Byte) :
    absorbByte s x = setAcur 0 (permuteS (xorS s.blk.ACUR.toNat x s)) := by
  obtain ⟨hmax, ha, -⟩ := (spongeReady_iff _).1 h
  exact if_pos ((cursor_succ hmax ha).2.2 hend)

/-- Settles O26: the one byte ends the block, and `permute` is applied to the 200 bytes with that byte in. -/
theorem absorbPermutesAtTheBoundary : Obligations.AbsorbPermutesAtTheBoundary := by
  intro x s h hm hp hend
  have hr := spongeReady_of_raw h hm
  have hstep : absorb [x] s = setAcur 0 (permuteS (xorS s.blk.ACUR.toNat x s)) := absorbByte_boundary hr hend x
  refine ⟨_, exec_absorb hr hm hp [x], ?_, ?_, ?_⟩ <;> rw [hstep]
  · rfl
  · rfl
  · refine (permuteS_bytes _).trans (congrArg (permuteBytes s.par.permute) ?_)
    refine (Memory.readBytes_write h.sWf _ _ _).trans (List.map_congr_left fun a _ => ?_)
    split_ifs with ha
    · rw [ha]
    · rfl

/-! ### The padding (R104, R105) -/

/-- R102: zero bytes that stay inside the block move the cursor and nothing else. -/
theorem absorb_zeros {s : State} (h : spongeReady s.blk = true) (hs : s.blk.S.wf Config.stateBytes = true) (k : Nat)
    (hk : s.blk.ACUR.toNat + k < s.blk.RATE.toNat) :
    absorb (List.replicate k 0x00) s = setAcur (s.blk.ACUR + BitVec.ofNat 8 k) s := by
  induction k generalizing s with
  | zero => simp [setAcur]
  | succ k ih =>
    obtain ⟨hmax, ha, -⟩ := (spongeReady_iff _).1 h
    have hxor : xorS s.blk.ACUR.toNat 0x00 s = s := by
      rw [xorS, BitVec.ofNat_eq_ofNat, BitVec.xor_zero,
        Memory.write_read hs (by simp only [Config.stateBytes]; omega)]
    have hstep : absorbByte s 0x00 = setAcur (s.blk.ACUR + 1) s := by
      rw [absorbByte_inside h (by omega), hxor]
    have hcur : s.blk.ACUR + 1 + BitVec.ofNat 8 k = s.blk.ACUR + BitVec.ofNat 8 (k + 1) := by
      rw [Nat.add_comm k 1, BitVec.ofNat_add, BitVec.add_assoc]
      rfl
    have hready := absorbByte_ready h 0x00
    rw [hstep] at hready
    rw [List.replicate_succ, absorb_cons, hstep, ih hready hs, ← hcur]
    · rfl
    · simp only [setAcur_blk, (cursor_succ hmax ha).1]
      omega

/-- R26: a legal suffix leaves the top bit of its byte to the padding. -/
theorem xor_pad_of_legal : ∀ ds : Byte, dsReserved ds = false → ds ^^^ 0x80 = ds ||| 0x80 := by decide

/-- Two bytes at one index are their exclusive or. -/
theorem xorS_xorS {s : State} (hs : s.blk.S.wf Config.stateBytes = true) {i : Nat} (hi : i < Config.stateBytes)
    (x y : Byte) : xorS i y (xorS i x s) = xorS i (x ^^^ y) s := by
  have hx := Memory.wf_write hs (s.blk.S.read i ^^^ x) hi
  have hS : (xorS i y (xorS i x s)).blk.S = (xorS i (x ^^^ y) s).blk.S := by
    refine Memory.eq_of_read_eq (Memory.wf_write hx _ hi) (Memory.wf_write hs _ hi) fun a => ?_
    simp only [xorS_blk, Memory.read_write hx, Memory.read_write hs, if_true, BitVec.xor_assoc]
    split_ifs <;> rfl
  simp only [xorS_blk] at hS
  simp only [xorS, hS]

/-- R105: absorbing the padding bytes writes the suffix at `ACUR` and the last bit at the end of the block, and permutes
once: one byte with both in it, or the suffix, zeros that change nothing, and the byte that ends the block. -/
theorem absorb_pad {s : State} (h : spongeReady s.blk = true) (hs : s.blk.S.wf Config.stateBytes = true)
    (hds : dsReserved s.blk.DSBYTE = false) :
    absorb (padBytes s.blk.DSBYTE (s.blk.RATE.toNat - s.blk.ACUR.toNat)) s =
      setAcur 0 (permuteS (xorS (s.blk.RATE.toNat - 1) 0x80 (xorS s.blk.ACUR.toNat s.blk.DSBYTE s))) := by
  obtain ⟨hmax, ha, -⟩ := (spongeReady_iff _).1 h
  have hsize : s.blk.ACUR.toNat < Config.stateBytes := by simp only [Config.stateBytes]; omega
  by_cases hone : s.blk.RATE.toNat - s.blk.ACUR.toNat = 1
  · have hlast : s.blk.RATE.toNat - 1 = s.blk.ACUR.toNat := by omega
    rw [padBytes, if_pos hone, absorb_cons, absorb_nil, absorbByte_boundary h (by omega), hlast,
      xorS_xorS hs hsize, xor_pad_of_legal _ hds]
  · obtain ⟨k, hk⟩ : ∃ k, s.blk.RATE.toNat = s.blk.ACUR.toNat + k + 2 :=
      ⟨s.blk.RATE.toNat - s.blk.ACUR.toNat - 2, by omega⟩
    have hinside := absorbByte_inside h (by omega) s.blk.DSBYTE
    have hzeros := absorb_zeros (absorbByte_ready h s.blk.DSBYTE) (absorbByte_wf h hs _) k
      (by rw [(absorbByte_cursor h _).1, absorbByte_RATE, Nat.mod_eq_of_lt (by omega)]; omega)
    have hcur : (absorb (s.blk.DSBYTE :: List.replicate k 0x00) s).blk.ACUR.toNat = s.blk.RATE.toNat - 1 := by
      rw [(absorb_cursor h _).1, List.length_cons, List.length_replicate, Nat.mod_eq_of_lt (by omega)]
      omega
    have hpad : padBytes s.blk.DSBYTE (s.blk.RATE.toNat - s.blk.ACUR.toNat) =
        (s.blk.DSBYTE :: List.replicate k 0x00) ++ [0x80] := by
      rw [padBytes, if_neg hone, hk, show s.blk.ACUR.toNat + k + 2 - s.blk.ACUR.toNat - 2 = k by omega]
      rfl
    rw [hpad, absorb_append, absorb_cons _ [], absorb_nil,
      absorbByte_boundary (absorb_ready h _) (by rw [hcur, absorb_RATE]; omega), hcur, absorb_cons, hzeros, hinside]
    rfl

/-- R105: `FINPAD` absorbs the padding bytes, and then starts the squeezing phase. -/
theorem finpad_eq_absorb_pad {s : State} (h : spongeReady s.blk = true) (hs : s.blk.S.wf Config.stateBytes = true)
    (hds : dsReserved s.blk.DSBYTE = false) :
    finpad s =
      { absorb (padBytes s.blk.DSBYTE (s.blk.RATE.toNat - s.blk.ACUR.toNat)) s with
        blk := { (absorb (padBytes s.blk.DSBYTE (s.blk.RATE.toNat - s.blk.ACUR.toNat)) s).blk with
          SCUR := 0, PHASE := .squeezing } } := by
  rw [absorb_pad h hs hds]
  rfl

/-- Settles O28: `FINPAD` by its padding bytes, which the invariant makes legal. -/
theorem paddingIsAnAbsorbedPad : Obligations.PaddingIsAnAbsorbedPad := fun _ h hm _ =>
  ⟨_, rfl, finpad_eq_absorb_pad (spongeReady_of_inv h hm) h.sWf (h.sponge hm).dsLegal⟩

/-! ### The rounds of the squeeze loop (R106) -/

/-- R106: the last byte of a block is emitted and all 200 bytes are permuted. -/
theorem squeezeStep_boundary {s : State} (h : spongeReady s.blk = true)
    (hend : s.blk.SCUR.toNat + 1 = s.blk.RATE.toNat) : squeezeStep s = setScur 0 (permuteS s) := by
  obtain ⟨hmax, -, hc⟩ := (spongeReady_iff _).1 h
  exact if_pos ((cursor_succ hmax hc).2.2 hend)

/-- R106: bytes that end the block are read in index order like those inside it, and all 200 bytes are permuted after
them. -/
theorem squeeze_to_boundary {s : State} (h : spongeReady s.blk = true) {t : Nat}
    (ht : s.blk.SCUR.toNat + t = s.blk.RATE.toNat) :
    squeezeOut t s = s.blk.S.readBytes s.blk.SCUR.toNat t ∧ squeezeEnd t s = setScur 0 (permuteS s) := by
  obtain ⟨-, -, hc⟩ := (spongeReady_iff _).1 h
  obtain ⟨k, rfl⟩ : ∃ k, t = k + 1 := ⟨t - 1, by omega⟩
  obtain ⟨hout, hS⟩ := squeeze_within_block h k (by omega)
  have hcur : (squeezeEnd k s).blk.SCUR.toNat = s.blk.SCUR.toNat + k := by
    rw [(squeezeEnd_cursor h k).1, Nat.mod_eq_of_lt (by omega)]
  constructor
  · rw [squeezeOut_add, squeezeOut_succ, squeezeOut_zero, hout, hS, hcur, Memory.readBytes_add]
    simp [Memory.readBytes]
  · rw [squeezeEnd_add, squeezeEnd_succ, squeezeEnd_zero,
      squeezeStep_boundary (squeezeEnd_ready h k) (by rw [hcur, squeezeEnd_RATE]; omega),
      squeezeEnd_within_block h k (by omega)]
    rfl

/-- R106: one round of the spec's loop, which does not pass the end of the block. -/
theorem squeeze_round {s : State} (h : spongeReady s.blk = true) {t : Nat}
    (ht : s.blk.SCUR.toNat + t ≤ s.blk.RATE.toNat) :
    squeezeOut t s = s.blk.S.readBytes s.blk.SCUR.toNat t ∧
    squeezeEnd t s =
      if s.blk.SCUR + BitVec.ofNat 8 t = s.blk.RATE then setScur 0 (permuteS s)
      else setScur (s.blk.SCUR + BitVec.ofNat 8 t) s := by
  have hcur : (s.blk.SCUR + BitVec.ofNat 8 t).toNat = s.blk.SCUR.toNat + t := by
    have := s.blk.RATE.isLt
    rw [BitVec.toNat_add, BitVec.toNat_ofNat]
    omega
  have hend : s.blk.SCUR + BitVec.ofNat 8 t = s.blk.RATE ↔ s.blk.SCUR.toNat + t = s.blk.RATE.toNat := by
    rw [← hcur, BitVec.toNat_inj]
  rcases Nat.lt_or_eq_of_le ht with hlt | heq
  · rw [if_neg (by rw [hend]; omega)]
    exact ⟨(squeeze_within_block h t hlt).1, squeezeEnd_within_block h t hlt⟩
  · rw [if_pos (hend.2 heq)]
    exact squeeze_to_boundary h heq

/-- R106: the byte-by-byte loop is the spec's loop, round by round. -/
theorem squeezeChunks_eq {s : State} (h : spongeReady s.blk = true) {fuel n : Nat} (hn : n ≤ fuel) :
    squeezeChunks fuel n s = (squeezeOut n s, squeezeEnd n s) := by
  induction fuel generalizing n s with
  | zero =>
    obtain rfl : n = 0 := by omega
    rfl
  | succ fuel ih =>
    obtain ⟨-, -, hc⟩ := (spongeReady_iff _).1 h
    by_cases hzero : n = 0
    · rw [hzero]
      rfl
    · generalize ht : min n (s.blk.RATE.toNat - s.blk.SCUR.toNat) = t
      obtain ⟨hout, hend⟩ := squeeze_round h (t := t) (by omega)
      have hrest := ih (squeezeEnd_ready h t) (n := n - t) (by omega)
      have hsplit : n = t + (n - t) := by omega
      conv_rhs => rw [hsplit, squeezeOut_add, squeezeEnd_add, hout]
      rw [squeezeChunks, if_neg hzero, ht]
      rw [hend] at hrest ⊢
      exact congrArg (fun r => (s.blk.S.readBytes s.blk.SCUR.toNat t ++ r.1, r.2)) hrest

/-- Settles O29: the loop after the padding step, in `n` rounds at most. -/
theorem squeezeIsTheChunkLoop : Obligations.SqueezeIsTheChunkLoop := fun n _ h hm =>
  (squeezeChunks_eq (finalizeSponge_ready (spongeReady_of_inv h hm)) (le_refl n)).symm

end Sys2Proof.Machine
end

section
/-! PROOFS. Sequences of commands on one Sponge: feeding it piece by piece, asking for one stream piece by piece, and
how often it permutes. -/

namespace Sys2Proof.Machine

/-! ### The response stream influences nothing (R39) -/

/-- The machine with another response stream. -/
def setResp (r : List Byte) (s : State) : State := { s with resp := r }

/-- R86: a response changes the response stream only. -/
theorem respond_eq_setResp (out : List Byte) (s : State) :
    respond out s = setResp (s.resp ++ statusOk :: out) s := rfl

theorem absorb_setResp (data : List Byte) (r : List Byte) (s : State) :
    absorb data (setResp r s) = setResp r (absorb data s) := by
  induction data generalizing s with
  | nil => rfl
  | cons x data ih =>
    have hstep : absorbByte (setResp r s) x = setResp r (absorbByte s x) := by
      rw [absorbByte, absorbByte, apply_ite (setResp r)]
      rfl
    rw [absorb_cons, absorb_cons, hstep, ih]

theorem finalizeSponge_setResp (r : List Byte) (s : State) :
    finalizeSponge (setResp r s) = setResp r (finalizeSponge s) := by
  rw [finalizeSponge, finalizeSponge, apply_ite (setResp r)]
  rfl

theorem squeezeStep_setResp (r : List Byte) (s : State) : squeezeStep (setResp r s) = setResp r (squeezeStep s) := by
  rw [squeezeStep, squeezeStep, apply_ite (setResp r)]
  rfl

theorem squeezeOut_setResp (n : Nat) (r : List Byte) (s : State) : squeezeOut n (setResp r s) = squeezeOut n s := by
  induction n generalizing s with
  | zero => rfl
  | succ n ih =>
    rw [squeezeOut_succ, squeezeOut_succ, squeezeStep_setResp, ih]
    rfl

theorem squeezeEnd_setResp (n : Nat) (r : List Byte) (s : State) :
    squeezeEnd n (setResp r s) = setResp r (squeezeEnd n s) := by
  induction n generalizing s with
  | zero => rfl
  | succ n ih => rw [squeezeEnd_succ, squeezeEnd_succ, squeezeStep_setResp, ih]

theorem squeeze_setResp (n : Nat) (r : List Byte) (s : State) :
    squeeze n (setResp r s) = ((squeeze n s).1, setResp r (squeeze n s).2) := by
  simp only [squeeze, finalizeSponge_setResp, squeezeOut_setResp, squeezeEnd_setResp]

/-! ### Two commands in a row (R108, R109) -/

theorem absorb_respond (data out : List Byte) (s : State) :
    absorb data (respond out s) = respond out (absorb data s) := by
  rw [respond_eq_setResp, respond_eq_setResp, absorb_setResp, absorb_resp]

@[simp] theorem squeeze_resp (n : Nat) (s : State) : (squeeze n s).2.resp = s.resp := by
  obtain ⟨-, -, -, -, hresp, -⟩ := squeeze_env n s
  exact hresp

theorem squeeze_respond (n : Nat) (out : List Byte) (s : State) :
    squeeze n (respond out s) = ((squeeze n s).1, respond out (squeeze n s).2) := by
  rw [respond_eq_setResp, respond_eq_setResp, squeeze_setResp, squeeze_resp]

/-- R27, R102: what lets an ABSORB run lets the next one run. -/
theorem exec_absorb_absorb {s : State} (hr : spongeReady s.blk = true) (hm : s.blk.MODE = .raw)
    (hp : s.blk.PHASE = .absorbing) (a b : List Byte) :
    exec (.absorb b) (respond [] (absorb a s)) = .next (respond [] (respond [] (absorb (a ++ b) s))) := by
  rw [exec_absorb (s := respond [] (absorb a s)) (absorb_ready hr a) (by simpa using hm) (by simpa using hp),
    absorb_respond, absorb_append]

/-- Settles O27: the second ABSORB goes on where the first one stopped. -/
theorem absorbConcatenates : Obligations.AbsorbConcatenates := by
  intro a b s h hm hp
  have hr := spongeReady_of_raw h hm
  refine ⟨exec_absorb hr hm hp [], _, _, exec_absorb hr hm hp a, exec_absorb_absorb hr hm hp a b, ?_⟩
  have hresp : (respond [] (absorb (a ++ b) s)).resp = s.resp ++ [0x00] := by
    rw [respond_resp, absorb_resp]
    rfl
  rw [exec_absorb hr hm hp, ← hresp]
  rfl

theorem squeeze_ready {s : State} (hr : spongeReady s.blk = true) (n : Nat) : spongeReady (squeeze n s).2.blk = true :=
  squeezeEnd_ready (finalizeSponge_ready hr) n

@[simp] theorem squeeze_MODE (n : Nat) (s : State) : (squeeze n s).2.blk.MODE = s.blk.MODE := by rw [squeeze_blk]

/-- R27, R106: what lets a SQUEEZE run lets the next one run. -/
theorem exec_squeeze_squeeze {s : State} (hr : spongeReady s.blk = true) (hm : s.blk.MODE = .raw) (m n : BitVec 24)
    (out : List Byte) :
    exec (.squeeze n) (respond out (squeeze m.toNat s).2) =
      .next (respond (squeeze n.toNat (squeeze m.toNat s).2).1
        (respond out (squeeze (m.toNat + n.toNat) s).2)) := by
  rw [exec_squeeze (s := respond out (squeeze m.toNat s).2) (squeeze_ready hr _) (by simpa using hm), squeeze_respond,
    squeeze_add]

/-- Settles O31: the second SQUEEZE goes on where the first one stopped. -/
theorem squeezesContinueOneStream : Obligations.SqueezesContinueOneStream := by
  intro m n k s h hm hk
  have hr := spongeReady_of_raw h hm
  refine ⟨_, _, (squeeze m.toNat s).1, (squeeze n.toNat (squeeze m.toNat s).2).1, exec_squeeze hr hm m, ?_,
    exec_squeeze_squeeze hr hm m n _, ?_, ?_⟩
  · rw [respond_resp, squeeze_resp]
    rfl
  · rw [respond_resp, respond_resp, respond_resp, squeeze_resp, squeeze_resp]
    rfl
  · rw [exec_squeeze hr hm, hk, respond_eq_setResp, squeeze_resp, squeeze_add]
    rfl

/-! ### Runs of many commands -/

theorem execAll_cons_of_next {i : Instr} {s t : State} (h : exec i s = .next t) (is : List Instr) :
    execAll (i :: is) s = execAll is t := by rw [execAll, h]

theorem execAll_append_of_next {is : List Instr} {s t : State} (h : execAll is s = .next t) (js : List Instr) :
    execAll (is ++ js) s = execAll js t := by
  induction is generalizing s with
  | nil =>
    cases h
    rfl
  | cons i is ih =>
    cases hi : exec i s with
    | next u =>
      rw [execAll_cons_of_next hi] at h
      rw [List.cons_append, execAll_cons_of_next hi, ih h]
    | fault r => simp [execAll, hi] at h
    | refused r => simp [execAll, hi] at h

/-- R108, R136: pieces fed one by one, ABSORB by ABSORB or UPDATE by UPDATE, are one message; every piece is answered. -/
theorem execAll_feeds {feed : List Byte → Instr} {P : State → Prop}
    (hfeed : ∀ data s, P s → exec (feed data) s = .next (respond [] (absorb data s)) ∧
      P (respond [] (absorb data s)))
    (pieces : List (List Byte)) {s : State} (hs : P s) :
    execAll (pieces.map feed) s =
      .next (setResp (s.resp ++ List.replicate pieces.length 0x00) (absorb pieces.flatten s)) := by
  induction pieces generalizing s with
  | nil =>
    simp [execAll, setResp]
  | cons a pieces ih =>
    obtain ⟨hnext, hkept⟩ := hfeed a s hs
    rw [List.map_cons, execAll_cons_of_next hnext, ih hkept, absorb_respond, respond_resp, absorb_resp,
      List.flatten_cons, absorb_append, List.length_cons, List.replicate_succ, List.append_assoc]
    rfl

/-- R103, R108: ABSORBs on an absorbing RAW block. -/
theorem execAll_absorbs {s : State} (hr : spongeReady s.blk = true) (hm : s.blk.MODE = .raw)
    (hp : s.blk.PHASE = .absorbing) (pieces : List (List Byte)) :
    execAll (pieces.map .absorb) s =
      .next (setResp (s.resp ++ List.replicate pieces.length 0x00) (absorb pieces.flatten s)) := by
  refine execAll_feeds (P := fun s => spongeReady s.blk = true ∧ s.blk.MODE = .raw ∧ s.blk.PHASE = .absorbing)
    ?_ pieces ⟨hr, hm, hp⟩
  rintro data s ⟨hr, hm, hp⟩
  exact ⟨exec_absorb hr hm hp data, absorb_ready hr data, by simpa using hm, by simpa using hp⟩

/-- R107, R109: SQUEEZEs on a squeezing RAW block are one request, but for the responses. -/
theorem execAll_squeezes {s : State} (hr : spongeReady s.blk = true) (hm : s.blk.MODE = .raw)
    (hp : s.blk.PHASE = .squeezing) (asks : List (BitVec 24)) :
    ∃ r, execAll (asks.map .squeeze) s = .next (setResp r (squeezeEnd (asks.map (·.toNat)).sum s)) := by
  induction asks generalizing s with
  | nil => exact ⟨s.resp, rfl⟩
  | cons n asks ih =>
    have hnext : exec (.squeeze n) s = .next (respond (squeezeOut n.toNat s) (squeezeEnd n.toNat s)) := by
      rw [exec_squeeze hr hm, squeeze_fst, squeeze_snd, finalizeSponge_of_squeezing hp]
    obtain ⟨r, hrest⟩ := ih (s := respond (squeezeOut n.toNat s) (squeezeEnd n.toNat s)) (squeezeEnd_ready hr _)
      (by simpa using hm) (by simpa using hp)
    refine ⟨r, ?_⟩
    rw [List.map_cons, execAll_cons_of_next hnext, hrest, List.map_cons, List.sum_cons, squeezeEnd_add,
      respond_eq_setResp, squeezeEnd_setResp]
    rfl

/-- R107, R109: one or more SQUEEZEs on a RAW block are one request, but for the responses; the first one finalizes. -/
theorem execAll_squeezes_of_ne_nil {s : State} (hr : spongeReady s.blk = true) (hm : s.blk.MODE = .raw)
    {asks : List (BitVec 24)} (hasks : asks ≠ []) :
    ∃ r, execAll (asks.map .squeeze) s = .next (setResp r (squeeze (asks.map (·.toNat)).sum s).2) := by
  obtain ⟨n, asks, rfl⟩ := List.exists_cons_of_ne_nil hasks
  obtain ⟨r, hrest⟩ := execAll_squeezes (s := respond (squeeze n.toNat s).1 (squeeze n.toNat s).2)
    (squeeze_ready hr _) (by simpa using hm) (by simp) asks
  refine ⟨r, ?_⟩
  rw [List.map_cons, execAll_cons_of_next (exec_squeeze hr hm n), hrest, List.map_cons, List.sum_cons,
    respond_eq_setResp, squeezeEnd_setResp, squeeze_snd, squeeze_snd, squeezeEnd_add]
  rfl

/-! ### A new RAW block (R101, R112) -/

/-- R27, R101: a new Sponge meets the preconditions of its steps. -/
theorem construct_ready {rate cap ds : Byte} (hds : dsReserved ds = false) (hrc : rateCapOk rate cap = true)
    (mode : Mode) (outlen : Byte) (s : State) : spongeReady (construct mode rate cap ds outlen s).blk = true := by
  have h := spongeInv_construct hds hrc mode outlen s
  exact (spongeReady_iff _).2 ⟨h.rateMax, h.acurLt, h.scurLt⟩

/-- R101, R108: a run that constructs a RAW block and feeds it comes to the state that absorbs the whole message. -/
theorem execAll_sinit_absorbs {rate cap ds : Byte} (hds : dsReserved ds = false) (hrc : rateCapOk rate cap = true)
    (pieces : List (List Byte)) (is : List Instr) (s : State) :
    execAll (.sinit rate cap ds :: (pieces.map .absorb ++ is)) s =
      execAll is (setResp (s.resp ++ List.replicate (1 + pieces.length) 0x00)
        (absorb pieces.flatten (construct .raw rate cap ds 0 s))) := by
  have hready := construct_ready hds hrc .raw 0 s
  have habsorbs := execAll_absorbs (s := respond [] (construct .raw rate cap ds 0 s)) hready rfl rfl pieces
  rw [execAll_cons_of_next (exec_sinit hds hrc s), execAll_append_of_next habsorbs, absorb_respond, respond_resp,
    Nat.add_comm 1, List.replicate_succ, List.append_assoc]
  rfl

/-- Settles O33: the run is one `AB` and one `SQ` on a new RAW block, whose permutations are counted. -/
theorem permutationCalls : Obligations.PermutationCalls := by
  intro rate cap ds pieces asks s hds hlt hrate hcap hsum hasks
  have hds := (dsReserved_eq_false_iff ds).2 ⟨hds, hlt⟩
  have hrc := (rateCapOk_iff rate cap).2 ⟨hrate, hcap, hsum⟩
  have hready := construct_ready hds hrc .raw 0 s
  have hsp := spongeInv_absorb (spongeInv_construct hds hrc .raw 0 s) rfl pieces.flatten
  obtain ⟨r, hrun⟩ := execAll_squeezes_of_ne_nil
    (s := setResp (s.resp ++ List.replicate (1 + pieces.length) 0x00)
      (absorb pieces.flatten (construct .raw rate cap ds 0 s)))
    (absorb_ready hready _) (absorb_MODE _ _) hasks
  refine ⟨_, (execAll_sinit_absorbs hds hrc pieces _ s).trans hrun, ?_⟩
  rw [squeeze_setResp]
  refine (squeeze_cursor hsp _).2.trans ?_
  rw [(absorb_cursor hready _).2]
  simp

end Sys2Proof.Machine
end

section
/-! PROOFS. The Sponge in closed form (R111): its absorb and squeeze steps, block by block, on the 200 bytes of `S`. -/

namespace Sys2Proof.Machine

/-- R52: the 200 bytes of `S` in index order. -/
def sBytes (b : Block) : List Byte := b.S.readBytes 0 Config.stateBytes

/-! ### Absorbing whole blocks -/

/-- R111: bytes exclusive-ored into the front of `S` make the block exclusive or of its bytes. -/
theorem readBytes_eq_xorBlock {m m' : Memory} {p : List Byte} (hp : p.length ≤ Config.stateBytes)
    (hread : ∀ a, m'.read a = m.read a ^^^ p.getD a 0x00) :
    m'.readBytes 0 Config.stateBytes = xorBlock (m.readBytes 0 Config.stateBytes) p := by
  refine List.ext_getElem (by simp [xorBlock]; omega) fun a ha hb => ?_
  have hpadded : (p ++ List.replicate (Config.stateBytes - p.length) 0x00)[a]'(by simp [xorBlock] at hb ⊢; omega) =
      p.getD a 0x00 := by
    rw [List.getElem_append]
    split_ifs with hin
    · exact (List.getD_eq_getElem _ _ hin).symm
    · rw [List.getElem_replicate, List.getD_eq_default _ _ (Nat.le_of_not_lt hin)]
  simp only [xorBlock, List.getElem_zipWith, hpadded]
  simp only [Memory.readBytes, List.getElem_map, List.getElem_range, Nat.zero_add, hread]

/-- R102: data shorter than a block, absorbed from the front. -/
theorem read_absorb_front {s : State} (h : spongeReady s.blk = true) (hs : s.blk.S.wf Config.stateBytes = true)
    (ha : s.blk.ACUR.toNat = 0) {data : List Byte} (hd : data.length < s.blk.RATE.toNat) (a : Nat) :
    (absorb data s).blk.S.read a = s.blk.S.read a ^^^ data.getD a 0x00 := by
  rw [absorb_within_block h hs data (by omega), ha, Nat.sub_zero, Nat.zero_add]
  split_ifs with hin
  · rfl
  · rw [List.getD_eq_default _ _ (by omega)]
    exact BitVec.xor_zero.symm

/-- R102, R111: one whole block from the front is exclusive-ored in, and the 200 bytes are permuted. -/
theorem sBytes_absorb_block {s : State} (h : spongeReady s.blk = true) (hs : s.blk.S.wf Config.stateBytes = true)
    (ha : s.blk.ACUR.toNat = 0) {p : List Byte} (hp : p.length = s.blk.RATE.toNat) :
    sBytes (absorb p s).blk = permuteBytes s.par.permute (xorBlock (sBytes s.blk) p) := by
  obtain ⟨hmax, hlt, -⟩ := (spongeReady_iff _).1 h
  obtain rfl | ⟨front, x, rfl⟩ := p.eq_nil_or_concat'
  · have : s.blk.RATE.toNat = 0 := hp.symm
    omega
  · rw [List.length_append, List.length_singleton] at hp
    have hwf := absorb_wf h hs front
    have hcur : (absorb front s).blk.ACUR.toNat = front.length := by
      rw [(absorb_cursor h front).1, ha, Nat.zero_add, Nat.mod_eq_of_lt (by omega)]
    rw [absorb_append, absorb_cons, absorb_nil,
      absorbByte_boundary (absorb_ready h front) (by rw [hcur, absorb_RATE, hp]), hcur]
    refine (permuteS_bytes _).trans ?_
    rw [xorS_par, absorb_par, sBytes]
    refine congrArg _ (readBytes_eq_xorBlock (by simp [Config.stateBytes]; omega) fun a => ?_)
    have hfront := read_absorb_front h hs ha (data := front) (by omega)
    rw [xorS_blk, Memory.read_write hwf, hfront, hfront]
    rcases Nat.lt_trichotomy a front.length with hbefore | rfl | hbeyond
    · rw [if_neg (by omega), List.getD_append _ _ _ _ hbefore]
    · rw [if_pos rfl, List.getD_eq_default front _ le_rfl, List.getD_append_right _ _ _ _ le_rfl, Nat.sub_self]
      exact congrArg (· ^^^ x) BitVec.xor_zero
    · rw [if_neg (by omega), List.getD_eq_default _ _ (by omega), List.getD_eq_default _ _ (by simp; omega)]

/-- R111: blocks absorbed from the front, block after block. -/
theorem sBytes_absorb_blocks {s : State} (h : spongeReady s.blk = true) (hs : s.blk.S.wf Config.stateBytes = true)
    (ha : s.blk.ACUR.toNat = 0) {j : Nat} {p : List Byte} (hp : p.length = j * s.blk.RATE.toNat) :
    sBytes (absorb p s).blk =
      absorbBlocks (permuteBytes s.par.permute) s.blk.RATE.toNat j (sBytes s.blk) p := by
  induction j generalizing s p with
  | zero =>
    obtain rfl : p = [] := List.eq_nil_of_length_eq_zero (by simpa using hp)
    rfl
  | succ j ih =>
    rw [Nat.succ_mul] at hp
    have hblock : (p.take s.blk.RATE.toNat).length = s.blk.RATE.toNat := by
      rw [List.length_take]
      omega
    have hcur : (absorb (p.take s.blk.RATE.toNat) s).blk.ACUR.toNat = 0 := by
      rw [(absorb_cursor h _).1, ha, hblock, Nat.zero_add, Nat.mod_self]
    have hrest := ih (absorb_ready h (p.take s.blk.RATE.toNat)) (absorb_wf h hs _) hcur
      (p := p.drop s.blk.RATE.toNat) (by rw [List.length_drop, absorb_RATE]; omega)
    rw [← absorb_append, List.take_append_drop, sBytes_absorb_block h hs ha hblock, absorb_par, absorb_RATE] at hrest
    exact hrest

/-! ### Squeezing whole blocks -/

theorem take_readBytes (m : Memory) {k n : Nat} (h : k ≤ n) : (m.readBytes 0 n).take k = m.readBytes 0 k := by
  rw [Memory.readBytes, ← List.map_take, List.take_range, Nat.min_eq_left h]
  rfl

/-- R109: a shorter request returns the front of a longer one. -/
theorem take_squeezeOut {n m : Nat} (h : n ≤ m) (s : State) : (squeezeOut m s).take n = squeezeOut n s := by
  obtain ⟨k, rfl⟩ := Nat.exists_eq_add_of_le h
  rw [squeezeOut_add, List.take_left' (length_squeezeOut n s)]

/-- R111: whole blocks squeezed from the front of `S`. -/
theorem squeezeOut_blocks {s : State} (h : spongeReady s.blk = true) (hc : s.blk.SCUR.toNat = 0) (j : Nat) :
    squeezeOut (j * s.blk.RATE.toNat) s =
      squeezeBlocks (permuteBytes s.par.permute) s.blk.RATE.toNat j (sBytes s.blk) := by
  induction j generalizing s with
  | zero => rw [Nat.zero_mul, squeezeOut_zero, squeezeBlocks]
  | succ j ih =>
    obtain ⟨hmax, -, -⟩ := (spongeReady_iff _).1 h
    obtain ⟨hout, hend⟩ := squeeze_to_boundary h (t := s.blk.RATE.toNat) (by omega)
    have hready := squeezeEnd_ready h s.blk.RATE.toNat
    rw [hend] at hready
    have hrest : squeezeOut (j * s.blk.RATE.toNat) (setScur 0 (permuteS s)) = _ := ih hready rfl
    have hbytes : sBytes (setScur 0 (permuteS s)).blk = permuteBytes s.par.permute (sBytes s.blk) := permuteS_bytes s
    rw [Nat.succ_mul, Nat.add_comm, squeezeOut_add, hout, hend, hrest, hbytes, hc, squeezeBlocks, sBytes,
      take_readBytes _ (by simp only [Config.stateBytes]; omega)]
    rfl

/-! ### The sponge function -/

/-- R105: the padding has the length it is asked for. -/
theorem length_padBytes (d : Byte) {q : Nat} (hq : 1 ≤ q) : (padBytes d q).length = q := by
  unfold padBytes
  split_ifs with hone
  · rw [hone]
    rfl
  · simp
    omega

/-- R105, R111: the padded message is whole blocks, one more than the message fills. -/
theorem length_append_padBytes (d : Byte) (m : List Byte) {r : Nat} (hr : 0 < r) :
    (m ++ padBytes d (r - m.length % r)).length = (m.length / r + 1) * r := by
  have hmod := Nat.mod_lt m.length hr
  have hdiv := Nat.div_add_mod' m.length r
  rw [List.length_append, length_padBytes d (by omega), Nat.succ_mul]
  omega

/-- R45, R111: the zero state. -/
theorem sBytes_construct (mode : Mode) (rate cap ds outlen : Byte) (s : State) :
    sBytes (construct mode rate cap ds outlen s).blk = List.replicate Config.stateBytes 0x00 := by
  simp [sBytes, Memory.readBytes, Memory.unlisted]

/-- R105, R111: after the padding step a sponge that started on a block boundary has absorbed the padded message. -/
theorem sBytes_finpad_absorb {s : State} (h : spongeReady s.blk = true) (hs : s.blk.S.wf Config.stateBytes = true)
    (ha : s.blk.ACUR.toNat = 0) (hds : dsReserved s.blk.DSBYTE = false) (m : List Byte) :
    sBytes (finpad (absorb m s)).blk =
      absorbBlocks (permuteBytes s.par.permute) s.blk.RATE.toNat (m.length / s.blk.RATE.toNat + 1) (sBytes s.blk)
        (m ++ padBytes s.blk.DSBYTE (s.blk.RATE.toNat - m.length % s.blk.RATE.toNat)) := by
  obtain ⟨-, hlt, -⟩ := (spongeReady_iff _).1 h
  rw [finpad_eq_absorb_pad (absorb_ready h m) (absorb_wf h hs m) (by rwa [absorb_DSBYTE]), absorb_DSBYTE, absorb_RATE,
    (absorb_cursor h m).1, ha, Nat.zero_add, ← absorb_append]
  exact sBytes_absorb_blocks h hs ha (length_append_padBytes _ m (by omega))

/-- R111: a request on a fresh block boundary returns the front of the output stream. -/
theorem squeezeOut_eq_take {s : State} (h : spongeReady s.blk = true) (hc : s.blk.SCUR.toNat = 0) (n : Nat) :
    squeezeOut n s =
      (squeezeBlocks (permuteBytes s.par.permute) s.blk.RATE.toNat (n / s.blk.RATE.toNat + 1)
        (sBytes s.blk)).take n := by
  obtain ⟨-, hlt, -⟩ := (spongeReady_iff _).1 h
  have hmod := Nat.mod_lt n (show 0 < s.blk.RATE.toNat by omega)
  have hdiv := Nat.div_add_mod' n s.blk.RATE.toNat
  rw [← squeezeOut_blocks h hc, take_squeezeOut (by rw [Nat.succ_mul]; omega)]

/-- R111: what `SQ(n)` returns on first use of a new Sponge that has absorbed the message `m`. -/
theorem squeeze_absorb_construct {rate cap ds : Byte} (hds : dsReserved ds = false) (hrc : rateCapOk rate cap = true)
    (mode : Mode) (outlen : Byte) (m : List Byte) (n : Nat) (s : State) :
    (squeeze n (absorb m (construct mode rate cap ds outlen s))).1 =
      spongeFunction (permuteBytes s.par.permute) rate.toNat ds m n := by
  have hready := construct_ready hds hrc mode outlen s
  have hrate : 0 < rate.toNat := (spongeInv_construct hds hrc mode outlen s).rateMin
  have hfinal : finalizeSponge (absorb m (construct mode rate cap ds outlen s)) =
      finpad (absorb m (construct mode rate cap ds outlen s)) := if_pos (absorb_PHASE _ _)
  have hfinalReady := finalizeSponge_ready (absorb_ready hready m)
  have hin := sBytes_finpad_absorb hready rfl rfl hds m
  rw [hfinal] at hfinalReady
  rw [squeeze_fst, hfinal, squeezeOut_eq_take hfinalReady rfl, hin, finpad_par, absorb_par, finpad_blk, absorb_RATE,
    sBytes_construct, spongeFunction, length_append_padBytes ds m hrate, Nat.mul_div_cancel _ hrate]
  rfl

/-- Settles O32: the run is one `AB` and one `SQ` on a new RAW block. -/
theorem rawSpongeIsTheSpongeFunction : Obligations.RawSpongeIsTheSpongeFunction := by
  intro rate cap ds pieces n s hds hlt hrate hcap hsum
  have hds := (dsReserved_eq_false_iff ds).2 ⟨hds, hlt⟩
  have hrc := (rateCapOk_iff rate cap).2 ⟨hrate, hcap, hsum⟩
  have hready := construct_ready hds hrc .raw 0 s
  have hsqueeze := exec_squeeze
    (s := setResp (s.resp ++ List.replicate (1 + pieces.length) 0x00)
      (absorb pieces.flatten (construct .raw rate cap ds 0 s)))
    (absorb_ready hready _) (absorb_MODE _ _) n
  refine ⟨_, (execAll_sinit_absorbs hds hrc pieces _ s).trans (execAll_cons_of_next hsqueeze []), ?_⟩
  rw [squeeze_setResp, squeeze_absorb_construct hds hrc]
  rfl

end Sys2Proof.Machine
end

section
/-! PROOFS. The commands of the Hash Engine one by one: what they are sent as, how they fail, and what they leave of the
whole machine. -/

namespace Sys2Proof.Machine

/-! ### The hexadecimal text (R135) -/

/-- R135: `digit` as the numbers of its ASCII codes. -/
theorem toNat_hexDigit : ∀ v < 16, (hexDigit v).toNat = if v < 10 then 0x30 + v else 0x61 + v - 10 := by decide

/-- R135: where the two digits of byte `j` stand. -/
theorem getD_hex {d : List Byte} {j : Nat} (hj : j < d.length) :
    (hex d).getD (2 * j) 0 = hexDigit ((d.getD j 0).toNat / 16) ∧
    (hex d).getD (2 * j + 1) 0 = hexDigit ((d.getD j 0).toNat % 16) := by
  induction d generalizing j with
  | nil => cases hj
  | cons b d ih =>
    cases j with
    | zero =>
      have hhigh : b.toNat >>> 4 = b.toNat / 16 := Nat.shiftRight_eq_div_pow b.toNat 4
      have hlow : b.toNat &&& 0x0F = b.toNat % 16 := Nat.and_two_pow_sub_one_eq_mod b.toNat 4
      exact ⟨congrArg hexDigit hhigh, congrArg hexDigit hlow⟩
    | succ j => exact ih (Nat.lt_of_succ_lt_succ hj)

/-- Settles O40: the digits of byte `j`, whose halves are below 16. -/
theorem hexTextDigits : Obligations.HexTextDigits := by
  intro d j hj
  obtain ⟨hhigh, hlow⟩ := getD_hex hj
  have hbyte : (d.getD j 0).toNat < 256 := (d.getD j 0).isLt
  rw [hhigh, hlow]
  exact ⟨length_hex d, toNat_hexDigit _ (by omega), toNat_hexDigit _ (by omega)⟩

/-! ### A Hash Engine that takes messages (R131, R132) -/

/-- A Hash Engine that is not finalized meets what UPDATE and the first DIGEST need of it. -/
structure Feeding (b : Block) : Prop where
  mode         : b.MODE = .hash
  notFinalized : b.FINALIZED = false
  phase        : b.PHASE = .absorbing
  ready        : spongeReady b = true
  digestFits   : digestReady b = true
  outlenLt     : b.OUTLEN.toNat < b.RATE.toNat
  noDigest     : b.DCACHE = []

/-- R9: every rate is that of a Sponge. -/
theorem rate_of_mem_variantTable : ∀ v ∈ variantTable, v.rate.toNat ≤ 199 ∧ 0 < v.rate.toNat := by decide

theorem digestReady_iff (b : Block) : digestReady b = true ↔ b.OUTLEN.toNat ≤ Config.dcacheBytes := by
  simp [digestReady]

/-- R27, R33: so says the invariant. -/
theorem feeding_of_inv {s : State} (h : Inv s) (hm : s.blk.MODE = .hash) (hf : s.blk.FINALIZED = false) :
    Feeding s.blk := by
  obtain ⟨v, hv, hrate, -, houtlen⟩ := (h.hash hm).row
  obtain ⟨-, hempty⟩ := (h.hash hm).notFin hf
  obtain ⟨hlt, -⟩ := outlen_lt_of_mem_variantTable v hv
  rw [← houtlen, ← hrate] at hlt
  exact ⟨hm, hf, (h.hash hm).phase_absorbing hf, (ready_of_inv h).sponge_of_hash hm, digestReady_of_inv h hm, hlt, hempty⟩

/-- The new Hash Engine of a variant's row (R131). -/
def newEngine (v : VariantRow) (s : State) : State := construct .hash v.rate v.cap s.par.hashDsbyte v.outlen s

/-- R131: a new Hash Engine takes messages, whatever the state before it. -/
theorem feeding_newEngine {v : VariantRow} (hv : v ∈ variantTable) (s : State) : Feeding (newEngine v s).blk := by
  obtain ⟨hmax, hpos⟩ := rate_of_mem_variantTable v hv
  obtain ⟨hlt, hfits⟩ := outlen_lt_of_mem_variantTable v hv
  exact ⟨rfl, rfl, rfl, (spongeReady_iff _).2 ⟨hmax, hpos, hpos⟩, (digestReady_iff _).2 hfits, hlt, rfl⟩

/-- R102: `AB` writes nothing of it but `S` and the absorb cursor. -/
theorem Feeding.absorb {s : State} (h : Feeding s.blk) (data : List Byte) : Feeding (Machine.absorb data s).blk where
  mode         := by simpa using h.mode
  notFinalized := by simpa using h.notFinalized
  phase        := by simpa using h.phase
  ready        := absorb_ready h.ready data
  digestFits   := by simpa [digestReady_iff] using h.digestFits
  outlenLt     := by simpa using h.outlenLt
  noDigest     := by simpa using h.noDigest

/-- R131: an HINIT with a supported variant constructs and absorbs. -/
theorem exec_hinit {var : Byte} {v : VariantRow} (hv : variantRow var = some v) (data : List Byte) (s : State) :
    exec (.hinit var data) s = .next (respond [] (absorb data (newEngine v s))) := exec_of_performs (.hinit hv)

/-- R132: an UPDATE on an engine that is not finalized runs `AB`. -/
theorem exec_update {s : State} (h : Feeding s.blk) (data : List Byte) :
    exec (.update data) s = .next (respond [] (absorb data s)) :=
  exec_of_performs (.update h.mode h.notFinalized h.ready)

/-- R71, R74, R79: a command word is sent as its opcode, the byte after it and the two bytes of its low 16 bits. -/
theorem wordBytes_eq_fieldHi (w : Word) : wordBytes w = fieldOp w :: fieldHi w :: beBytes (fieldHlen w).toNat 2 := by
  simp only [wordBytes, fieldOp, fieldHi, beBytes, List.cons.injEq, and_true, true_and]
  refine ⟨?_, ?_⟩ <;>
  · apply BitVec.eq_of_toNat_eq
    simp only [fieldHlen, BitVec.extractLsb'_toNat, BitVec.toNat_ofNat, Nat.shiftRight_eq_div_pow]
    omega

/-- R74, R79: the bytes of a format V word. -/
theorem wordBytes_formatV (op var : Byte) (hlen : BitVec 16) :
    wordBytes (formatV op var hlen) = op :: var :: beBytes hlen.toNat 2 := by
  rw [wordBytes_eq_fieldHi, fieldOp_formatV, fieldHi_formatV, fieldHlen_formatV]

/-- R74: an initial message too long for its field is sent with the low 16 bits of its length, like their two bytes. -/
theorem beBytes_ofNat_toNat_hlen (v : Nat) : beBytes (BitVec.ofNat 16 v).toNat 2 = beBytes v 2 :=
  beBytes_congr (by rw [BitVec.toNat_ofNat]; exact Nat.mod_mod _ _)

/-- R9: the rows by their codes. -/
theorem variantRow_of_mem :
    ∀ q ∈ ([(0, 144, 56, 28), (1, 136, 64, 32), (2, 104, 96, 48), (3, 72, 128, 64)] :
      List (Byte × Byte × Byte × Byte)), variantRow q.1 = some ⟨q.2.1, q.2.2.1, q.2.2.2⟩ := by
  simp only [List.forall_mem_cons]
  exact ⟨rfl, rfl, rfl, rfl, List.forall_mem_nil _⟩

/-- Settles O35: the table's error, and HINIT with data as HINIT without and then UPDATE. -/
theorem hinitConstructsAHashEngine : Obligations.HinitConstructsAHashEngine := by
  intro var data s
  refine ⟨?_, fun hvar => ?_, fun rate cap outlen hmem => ?_⟩
  · rw [encode, encodeWord, wordBytes_formatV, beBytes_ofNat_toNat_hlen]
    rfl
  · have hrow : variantRow var = none := List.getElem?_eq_none_iff.2 hvar
    exact exec_of_errorOf (e := .configurationError) (by rw [errorOf_hinit, if_pos hrow])
  · have hv := variantRow_of_mem _ hmem
    have hfeeding : Feeding (respond [] (newEngine ⟨rate, cap, outlen⟩ s)).blk :=
      feeding_newEngine (mem_variantTable_of_variantRow hv) s
    refine ⟨_, _, rfl, exec_hinit hv [] s, exec_update hfeeding data, ?_⟩
    rw [exec_hinit hv, absorb_respond, respond_eq_setResp, absorb_resp]
    rfl

/-- Settles O36: the table's errors, and what the laws of `AB` say. -/
theorem updateFeedsTheHashEngine : Obligations.UpdateFeedsTheHashEngine := by
  intro data s
  refine ⟨?_, fun hm => ?_, fun hm hf => ?_, fun h hm hf => ?_⟩
  · rw [encode, encodeWord, wordBytes_formatL, beBytes_ofNat_toNat]
    rfl
  · exact exec_of_errorOf (e := .illegalCommand) (by rw [errorOf_update, if_neg hm])
  · exact exec_of_errorOf (e := .stateError) (by rw [errorOf_update, if_pos hm, if_pos hf])
  · have hfeeding := feeding_of_inv h hm hf
    obtain ⟨hcur, hcalls⟩ := absorb_cursor hfeeding.ready data
    refine ⟨_, exec_update hfeeding data, ?_, hcur, hcalls, absorb_within_block hfeeding.ready h.sWf data⟩
    conv_lhs => rw [absorb_frame]
    rfl

/-! ### The digest (R133, R134) -/

theorem digestBytes_eq (b : Block) : digestBytes b = (List.range b.OUTLEN.toNat).map fun j => b.DCACHE.read j := by
  simp only [digestBytes, Memory.readBytes, Nat.zero_add]

/-- R133, R186: outside HASH both digest commands fail. -/
theorem exec_digestText_outside {i : Instr} {text : List Byte → List Byte} (hi : DigestText i text) {s : State}
    (hm : s.blk.MODE ≠ .hash) : exec i s = .next (raise .illegalCommand s) :=
  exec_of_errorOf (by rw [errorOf_digestText hi, if_neg hm])

/-- R133: the first digest finalizes. -/
theorem exec_digestText_first {i : Instr} {text : List Byte → List Byte} (hi : DigestText i text) {s : State}
    (h : Feeding s.blk) :
    exec i s = .next (respond (text (digestBytes (finalizeDigest s).blk)) (finalizeDigest s)) :=
  exec_of_performs (.finalize hi h.mode h.digestFits h.notFinalized h.ready)

/-- R133: a later digest is the cached one. -/
theorem exec_digestText_later {i : Instr} {text : List Byte → List Byte} (hi : DigestText i text) {s : State}
    (h : Inv s) (hm : s.blk.MODE = .hash) (hf : s.blk.FINALIZED = true) :
    exec i s = .next (respond (text (digestBytes s.blk)) s) :=
  exec_of_performs (.report hi hm (digestReady_of_inv h hm) hf)

/-- R133: what the first digest leaves of the whole machine. -/
theorem Feeding.finalizeDigest_eq {s : State} (h : Feeding s.blk) :
    finalizeDigest s = { finpad s with
      blk := { (finpad s).blk with
        SCUR := s.blk.OUTLEN, FINALIZED := true,
        DCACHE := Memory.writeBytes [] 0 ((finpad s).blk.S.readBytes 0 s.blk.OUTLEN.toNat) } } := by
  obtain ⟨hmax, -, -⟩ := (spongeReady_iff _).1 h.ready
  rw [finalizeDigest_of_absorbing h.phase hmax h.outlenLt, h.noDigest]

/-- R133: the first digest is the front of the permuted `S`. -/
theorem Feeding.digestBytes_finalizeDigest {s : State} (h : Feeding s.blk) :
    digestBytes (finalizeDigest s).blk = (finpad s).blk.S.readBytes 0 s.blk.OUTLEN.toNat := by
  rw [h.finalizeDigest_eq, digestBytes_eq, Memory.readBytes]
  refine List.map_congr_left fun j hj => ?_
  rw [Nat.zero_add]
  exact (read_digest ((digestReady_iff _).1 h.digestFits) j).trans (if_pos (List.mem_range.1 hj))

/-- R104: the 200 bytes after the padding step are `permute` of the padded ones. -/
theorem readBytes_finpad {s : State} (h : spongeReady s.blk = true) (hs : s.blk.S.wf Config.stateBytes = true) :
    (finpad s).blk.S.readBytes 0 Config.stateBytes =
      permuteBytes s.par.permute ((List.range Config.stateBytes).map fun a =>
        s.blk.S.read a ^^^ (if a = s.blk.ACUR.toNat then s.blk.DSBYTE else 0x00) ^^^
          (if a + 1 = s.blk.RATE.toNat then 0x80 else 0x00)) := by
  obtain ⟨hmax, ha, -⟩ := (spongeReady_iff _).1 h
  have hwf := Memory.wf_write hs (a := s.blk.ACUR.toNat) (s.blk.S.read s.blk.ACUR.toNat ^^^ s.blk.DSBYTE)
    (by simp only [Config.stateBytes]; omega)
  have hsuffix (a : Nat) : (xorS s.blk.ACUR.toNat s.blk.DSBYTE s).blk.S.read a =
      s.blk.S.read a ^^^ (if a = s.blk.ACUR.toNat then s.blk.DSBYTE else 0x00) := by
    rw [xorS_blk, Memory.read_write hs]
    split_ifs with hcur
    · rw [hcur]
    · exact BitVec.xor_zero.symm
  refine (permuteS_bytes _).trans (congrArg (permuteBytes s.par.permute) ?_)
  refine (Memory.readBytes_write hwf _ _ _).trans (List.map_congr_left fun a _ => ?_)
  have hlast : a = s.blk.RATE.toNat - 1 ↔ a + 1 = s.blk.RATE.toNat := by omega
  rw [← hsuffix a]
  simp only [hlast]
  split_ifs with hend
  · rw [← hlast.2 hend]
  · exact BitVec.xor_zero.symm

/-- Settles O37: the table's error, the padded state of the first digest, and the cache of a later one. -/
theorem digestFinalizesAndCaches : Obligations.DigestFinalizesAndCaches := by
  refine ⟨rfl, fun s => ⟨exec_digestText_outside .digest, fun h hm hf => ?_, fun h hm hf => ?_⟩⟩
  · have hfeeding := feeding_of_inv h hm hf
    have hfits := (digestReady_iff _).1 hfeeding.digestFits
    have hlt : s.blk.OUTLEN.toNat ≤ Config.stateBytes := hfits.trans (by decide)
    have hbytes := readBytes_finpad hfeeding.ready h.sWf
    rw [(h.hash hm).ds] at hbytes
    refine ⟨_, _, rfl, exec_digestText_first .digest hfeeding, ?_, ?_, fun j => ?_⟩
    · rw [hfeeding.digestBytes_finalizeDigest, ← take_readBytes _ hlt, hbytes, hfeeding.finalizeDigest_eq]
      rfl
    · rw [hfeeding.finalizeDigest_eq]
      exact hbytes
    · rw [hfeeding.finalizeDigest_eq]
      refine (read_digest hfits j).trans ?_
      split_ifs with hj
      · have hread := Memory.getD_readBytes (finpad s).blk.S 0 Config.stateBytes j (hj.trans_le hlt) 0
        rw [hbytes, Nat.zero_add] at hread
        exact hread.symm
      · rfl
  · rw [exec_digestText_later .digest h hm hf, digestBytes_eq]
    rfl

/-- R133, R134: on a Hash Engine, finalized or not, both digest commands lead to one state and report one digest, each in
its text. -/
theorem exec_digestText_same {s : State} (h : Inv s) (hm : s.blk.MODE = .hash) :
    ∃ (u : State) (d : List Byte), d.length = s.blk.OUTLEN.toNat ∧ u.resp = s.resp ∧
      ∀ {i : Instr} {text : List Byte → List Byte}, DigestText i text → exec i s = .next (respond (text d) u) := by
  cases hf : s.blk.FINALIZED with
  | true => exact ⟨s, _, length_digestBytes s.blk, rfl, fun hi => exec_digestText_later hi h hm hf⟩
  | false =>
    obtain ⟨-, -, -, -, hresp, -⟩ := finalizeDigest_env s
    obtain ⟨-, -, -, -, houtlen⟩ := finalizeDigest_sameConfig s
    exact ⟨finalizeDigest s, _, by rw [length_digestBytes, houtlen], hresp,
      fun hi => exec_digestText_first hi (feeding_of_inv h hm hf)⟩

/-- Settles O39: the two commands differ in the text only. -/
theorem hexdigestIsTheTextOfDigest : Obligations.HexdigestIsTheTextOfDigest := by
  refine ⟨rfl, fun s => ⟨fun hm => ⟨exec_digestText_outside .digest hm, exec_digestText_outside .hexdigest hm⟩,
    fun h hm => ?_⟩⟩
  obtain ⟨u, d, hlen, hresp, hexec⟩ := exec_digestText_same h hm
  refine ⟨_, d, hexec .digest, hlen, by rw [respond_resp, hresp]; rfl, ?_⟩
  rw [hexec .hexdigest, respond_eq_setResp, hresp]
  rfl

end Sys2Proof.Machine
end

section
/-! PROOFS. Sequences of commands on one Hash Engine: digests that stay, messages in pieces, and the digest in closed
form. -/

namespace Sys2Proof.Machine

/-! ### A finalized engine (R137) -/

/-- R137: the commands that may come between two digests. -/
def BetweenDigests (i : Instr) : Prop := i = .digest ∨ i = .hexdigest ∨ i = .stat ∨ ∃ data, i = .update data

/-- R133, R137: on a finalized engine each of them completes and writes no element but `ERR`, and the digest commands
write not even that. -/
theorem exec_betweenDigests {i : Instr} (hi : BetweenDigests i) {s : State} (h : Inv s) (hm : s.blk.MODE = .hash)
    (hf : s.blk.FINALIZED = true) :
    ∃ t, exec i s = .next t ∧ Inv t ∧ t.blk = { s.blk with ERR := t.blk.ERR } ∧
      (i = .digest ∨ i = .hexdigest → t.blk = s.blk) := by
  obtain rfl | rfl | rfl | ⟨data, rfl⟩ := hi
  · exact ⟨_, exec_digestText_later .digest h hm hf, inv_respond h _, rfl, fun _ => rfl⟩
  · exact ⟨_, exec_digestText_later .hexdigest h hm hf, inv_respond h _, rfl, fun _ => rfl⟩
  · exact ⟨_, exec_of_performs .stat, inv_respond h _, rfl, fun _ => rfl⟩
  · have herr : errorOf (.update data) s.blk = some .stateError := by rw [errorOf_update, if_pos hm, if_pos hf]
    exact ⟨_, exec_of_errorOf herr, inv_raise h _, rfl, fun hi => by simp at hi⟩

/-- R137: and so does any list of them. -/
theorem execAll_betweenDigests {is : List Instr} (his : ∀ i ∈ is, BetweenDigests i) {s : State} (h : Inv s)
    (hm : s.blk.MODE = .hash) (hf : s.blk.FINALIZED = true) :
    ∃ t, execAll is s = .next t ∧ Inv t ∧ t.blk = { s.blk with ERR := t.blk.ERR } ∧
      ((∀ i ∈ is, i = .digest ∨ i = .hexdigest) → t.blk = s.blk) := by
  induction is generalizing s with
  | nil => exact ⟨s, rfl, h, rfl, fun _ => rfl⟩
  | cons i is ih =>
    rw [List.forall_mem_cons] at his
    obtain ⟨hi, his⟩ := his
    obtain ⟨u, hu, hinv, hblk, hsame⟩ := exec_betweenDigests hi h hm hf
    obtain ⟨t, ht, hinv', hblk', hsame'⟩ := ih his hinv (by rw [hblk]; exact hm) (by rw [hblk]; exact hf)
    rw [hblk] at hblk'
    refine ⟨t, (execAll_cons_of_next hu is).trans ht, hinv', hblk', fun hall => ?_⟩
    rw [List.forall_mem_cons] at hall
    obtain ⟨hdigest, hdigests⟩ := hall
    exact (hsame' hdigests).trans (hsame hdigest)

/-- Settles O38: after the list the engine is still finalized, with the same cache. -/
theorem digestsStayTheSame : Obligations.DigestsStayTheSame := by
  intro s is h hm hf his
  obtain ⟨t, ht, hinv, hblk, hsame⟩ := execAll_betweenDigests his h hm hf
  have hdigest : digestBytes t.blk = (List.range s.blk.OUTLEN.toNat).map fun j => s.blk.DCACHE.read j := by
    rw [hblk]
    exact digestBytes_eq s.blk
  have hlater {i : Instr} {text : List Byte → List Byte} (hi : DigestText i text) :=
    exec_digestText_later hi hinv (by rw [hblk]; exact hm) (by rw [hblk]; exact hf)
  rw [hdigest] at hlater
  exact ⟨t, ht, hblk, hsame, hlater .digest, hlater .hexdigest⟩

/-! ### Messages in pieces (R136) -/

/-- R132, R136: UPDATEs on an engine that is not finalized are one message. -/
theorem execAll_updates {s : State} (h : Feeding s.blk) (pieces : List (List Byte)) :
    execAll (pieces.map .update) s =
      .next (setResp (s.resp ++ List.replicate pieces.length 0x00) (absorb pieces.flatten s)) :=
  execAll_feeds (P := fun s => Feeding s.blk) (fun data _ h => ⟨exec_update h data, h.absorb data⟩) pieces h

/-- R131, R136: a run that constructs a Hash Engine and feeds it comes to the state that absorbs the whole message. -/
theorem execAll_hinit_updates {var : Byte} {v : VariantRow} (hv : variantRow var = some v) (first : List Byte)
    (pieces : List (List Byte)) (is : List Instr) (s : State) :
    execAll (.hinit var first :: (pieces.map .update ++ is)) s =
      execAll is (setResp (s.resp ++ List.replicate (1 + pieces.length) 0x00)
        (absorb (first ++ pieces.flatten) (newEngine v s))) := by
  have hfeeding : Feeding (respond [] (absorb first (newEngine v s))).blk :=
    (feeding_newEngine (mem_variantTable_of_variantRow hv) s).absorb first
  rw [execAll_cons_of_next (exec_hinit hv first s), execAll_append_of_next (execAll_updates hfeeding pieces),
    absorb_respond, respond_resp, absorb_resp, ← absorb_append, Nat.add_comm 1, List.replicate_succ, List.append_assoc]
  rfl

/-- Settles O41: both runs absorb the whole message into the same new engine. -/
theorem updatesConcatenate : Obligations.UpdatesConcatenate := by
  intro var first pieces s hvar
  obtain ⟨v, hv⟩ : ∃ v, variantRow var = some v := ⟨_, List.getElem?_eq_getElem (Nat.lt_succ_of_le hvar)⟩
  have hpieces := execAll_hinit_updates hv first pieces [] s
  rw [List.append_nil] at hpieces
  exact ⟨_, _, hpieces, exec_hinit hv _ s, rfl, rfl, rfl⟩

/-! ### The digest in closed form (R139) -/

/-- R106, R133: the first digest is what `SQ(OUTLEN)` returns. -/
theorem Feeding.digestBytes_eq_squeeze {s : State} (h : Feeding s.blk) :
    digestBytes (finalizeDigest s).blk = (squeeze s.blk.OUTLEN.toNat s).1 := by
  obtain ⟨hmax, -, -⟩ := (spongeReady_iff _).1 h.ready
  rw [h.digestBytes_finalizeDigest, squeeze_of_absorbing h.phase hmax h.outlenLt]

/-- Settles O42: the run is one `AB` and one `SQ` on a new Hash Engine. -/
theorem digestIsTheSpongeFunction : Obligations.DigestIsTheSpongeFunction := by
  intro var row first pieces s hds hrow
  have hmem : row ∈ variantTable := mem_variantTable_of_variantRow hrow
  have hrun := execAll_hinit_updates hrow first pieces [.digest] s
  generalize hr : s.resp ++ List.replicate (1 + pieces.length) 0x00 = r at hrun ⊢
  generalize first ++ pieces.flatten = message at hrun ⊢
  have hfeeding : Feeding (setResp r (absorb message (newEngine row s))).blk :=
    (feeding_newEngine hmem s).absorb message
  obtain ⟨-, -, -, -, hresp, -⟩ := finalizeDigest_env (setResp r (absorb message (newEngine row s)))
  refine ⟨_, hrun.trans (execAll_cons_of_next (exec_digestText_first .digest hfeeding) []), ?_⟩
  rw [respond_resp, hresp, hfeeding.digestBytes_eq_squeeze, squeeze_setResp]
  have houtlen : (setResp r (absorb message (newEngine row s))).blk.OUTLEN = row.outlen := absorb_OUTLEN _ _
  rw [houtlen, newEngine, squeeze_absorb_construct hds (rateCapOk_of_mem_variantTable row hmem)]
  rfl

end Sys2Proof.Machine
end

section
/-! PROOFS. The Random Bit Extractor: what a draw takes from the bound provider, the masked bytes that GETRANDBITS
returns, the binary64 form that RANDOM returns, and the providers that always answer alike. -/

namespace Sys2Proof.Machine

/-! ### Providers (R153) -/

/-- Settles O49: the counter goes on where the first answer leaves it. -/
theorem providersAnswerInFull : Obligations.ProvidersAnswerInFull := by
  refine ⟨length_providerSqueeze, fun c m n => ⟨?_, ?_⟩⟩
  · simp [providerSqueeze, List.range_add, BitVec.ofNat_add, BitVec.add_assoc]
  · simp [providerSqueeze, BitVec.ofNat_add, BitVec.add_assoc]

/-- Settles O44: RBIND has one arm and no check. -/
theorem rbindSelectsTheProvider : Obligations.RbindSelectsTheProvider :=
  ⟨by decide, by decide, fun _ _ => exec_of_performs .rbind⟩

/-! ### A draw (R152, R157, R158) -/

/-- R83: a draw needs the external provider or a raw Sponge. -/
theorem exec_draws_unavailable {i : Instr} {n : Nat} {f : Nat → List Byte} (hi : Draws i n f) {s : State}
    (hp : s.blk.PSEL = .int) (hm : s.blk.MODE ≠ .raw) : exec i s = .next (raise .illegalCommand s) :=
  exec_of_errorOf (by rw [errorOf_draws hi, if_neg (by simp [hp, hm])])

/-- R152: a draw responds with what its command makes of the bytes of `PSQ`, and leaves the state of `PSQ`. -/
theorem exec_draws_available {i : Instr} {n : Nat} {f : Nat → List Byte} (hi : Draws i n f) {s : State} (h : Inv s)
    (hav : s.blk.PSEL = .ext ∨ s.blk.MODE = .raw) :
    exec i s = .next (respond (f (be (psq n s).1)) (psq n s).2) := by
  cases hp : s.blk.PSEL with
  | ext =>
    rw [psq_ext hp]
    exact exec_of_performs (.drawExt hi hp)
  | int =>
    have hm : s.blk.MODE = .raw := hav.resolve_left (by simp [hp])
    rw [psq_int hp]
    exact exec_of_performs (.drawInt hi hp hm (spongeReady_of_raw h hm))

/-- R157, R158: with `PSEL = 0` a draw and a SQUEEZE of as many bytes differ in their responses only. -/
theorem exec_squeeze_of_draw {s : State} (h : Inv s) (hp : s.blk.PSEL = .int) (hm : s.blk.MODE = .raw) {n : Nat}
    (hn : n < 2 ^ 24) (out : List Byte) :
    exec (.squeeze (BitVec.ofNat 24 n)) s =
      .next { respond out (psq n s).2 with resp := s.resp ++ 0x00 :: (psq n s).1 } := by
  rw [psq_int hp, exec_squeeze (spongeReady_of_raw h hm) hm, BitVec.toNat_ofNat, Nat.mod_eq_of_lt hn,
    respond_eq_setResp, squeeze_resp]
  rfl

/-- R153, R158: with `PSEL = 1` a draw moves the external provider and nothing else. -/
theorem respond_psq_ext {s : State} (hp : s.blk.PSEL = .ext) (n : Nat) (out : List Byte) :
    respond out (psq n s).2 =
      { s with ext := (providerSqueeze s.ext n).2, resp := (respond out (psq n s).2).resp } := by
  rw [psq_ext hp]
  rfl

/-- R86: a provider request writes nothing to the response stream; the command adds its one response. -/
theorem resp_respond_psq (n : Nat) (out : List Byte) (s : State) :
    (respond out (psq n s).2).resp = s.resp ++ 0x00 :: out := by
  obtain ⟨-, -, -, hresp, -⟩ := psq_env n s
  rw [respond_resp, hresp]
  rfl

/-- Settles O46: a draw of seven bytes. -/
theorem randomDrawsAFraction : Obligations.RandomDrawsAFraction := by
  refine ⟨by decide, fun s => ⟨exec_draws_unavailable .random, fun h hav => ?_⟩⟩
  refine ⟨_, (psq 7 s).1, length_psq 7 s, exec_draws_available .random h hav, ?_, fun hp => ?_,
    fun hp => ⟨?_, respond_psq_ext hp 7 _⟩⟩
  · rw [resp_respond_psq, lowBits_eq]
  · exact exec_squeeze_of_draw h hp (hav.resolve_left (by simp [hp])) (by norm_num) _
  · rw [psq_ext hp]

/-! ### The low bits of big-endian bytes (R154) -/

/-- R154: the first of the bytes that spell `k` bits, with its unused high bits cleared. -/
def maskFirst (k : Nat) (b : Byte) : Byte :=
  if k % 8 = 0 then b else BitVec.ofNat 8 (b.toNat % 2 ^ (k % 8))

/-- Where `k` bits fill `n` bytes and 1 to 8 bits of one more, the mask leaves those. -/
theorem toNat_maskFirst {k n j : Nat} (hk : k = 8 * n + j) (hpos : 0 < j) (hle : j ≤ 8) (b : Byte) :
    (maskFirst k b).toNat = b.toNat % 2 ^ j := by
  have hb : b.toNat < 2 ^ 8 := b.isLt
  obtain rfl | hlt := hle.eq_or_lt
  · rw [maskFirst, if_pos (by omega), Nat.mod_eq_of_lt hb]
  · rw [maskFirst, if_neg (by omega), show k % 8 = j by omega, BitVec.toNat_ofNat]
    exact Nat.mod_eq_of_lt ((Nat.mod_le _ _).trans_lt hb)

/-- R154: clearing the unused high bits of the first byte is the remainder by `2^k`. -/
theorem be_maskFirst_cons {k : Nat} {b : Byte} {bs : List Byte} (hlen : (b :: bs).length = (k + 7) / 8) :
    be (maskFirst k b :: bs) = be (b :: bs) % 2 ^ k := by
  rw [List.length_cons] at hlen
  obtain ⟨j, hj⟩ : ∃ j, k = 8 * bs.length + j := Nat.exists_eq_add_of_le (by omega)
  have hpow : 2 ^ k = 256 ^ bs.length * 2 ^ j := by rw [hj, pow_add, pow_mul]; norm_num
  have hlow : (b.toNat * 256 ^ bs.length + be bs) % 256 ^ bs.length = be bs :=
    Nat.mul_add_mod_of_lt (be_lt bs)
  have hhigh : (b.toNat * 256 ^ bs.length + be bs) / 256 ^ bs.length = b.toNat := by
    rw [Nat.mul_comm, Nat.mul_add_div (by positivity), Nat.div_eq_of_lt (be_lt bs), Nat.add_zero]
  rw [be_cons, be_cons, toNat_maskFirst hj (by omega) (by omega), hpow, Nat.mod_mul, hlow, hhigh]
  ring

/-- R154: so the bytes of the low `k` bits are the provider's, the first one masked. -/
theorem beBytes_low_bits {k : Nat} {b : Byte} {bs : List Byte} (hlen : (b :: bs).length = (k + 7) / 8) :
    beBytes (lowBits (be (b :: bs)) k) ((k + 7) / 8) = maskFirst k b :: bs := by
  rw [lowBits_eq, ← be_maskFirst_cons hlen, ← hlen]
  exact beBytes_be (maskFirst k b :: bs)

/-- Settles O45: a draw of `ceil(k / 8)` bytes, of which there is at least one. -/
theorem getrandbitsDrawsBits : Obligations.GetrandbitsDrawsBits := by
  intro k s
  refine ⟨?_, fun hfail => ?_, fun h hk hav => ?_⟩
  · rw [encode, encodeWord, wordBytes_formatL]
    exact List.append_nil _
  · by_cases hk : k = 0
    · subst hk
      exact exec_of_errorOf (e := .illegalCommand) rfl
    · obtain ⟨hp, hm⟩ := hfail.resolve_left hk
      exact exec_draws_unavailable (.getrandbits hk) hp hm
  · have hpos : 0 < k.toNat := Nat.pos_of_ne_zero fun h0 => hk (BitVec.eq_of_toNat_eq h0)
    have hlt : k.toNat < 2 ^ 24 := k.isLt
    have hlen : (psq ((k.toNat + 7) / 8) s).1.length = (k.toNat + 7) / 8 := length_psq _ s
    obtain ⟨b, bs, hbs⟩ := List.exists_cons_of_length_pos (hlen ▸ (by omega : 0 < (k.toNat + 7) / 8))
    rw [hbs] at hlen
    have hexec := exec_draws_available (.getrandbits hk) h hav
    rw [show ceilDiv k.toNat 8 = (k.toNat + 7) / 8 from rfl, hbs, beBytes_low_bits hlen] at hexec
    refine ⟨_, _, b, _, bs, rfl, hlen, hexec, resp_respond_psq _ _ s, rfl, be_maskFirst_cons hlen, fun hp => ?_,
      fun hp => ⟨?_, respond_psq_ext hp _ _⟩⟩
    · rw [← hbs]
      exact exec_squeeze_of_draw h hp (hav.resolve_left (by simp [hp])) (by omega) _
    · rw [← hbs, psq_ext hp]

/-! ### The binary64 form of `m / 2^53` (R156) -/

/-- R156: the significand with its leading bit is `m`, moved up to bit 52. -/
theorem f64_significand {m : Nat} (h0 : m ≠ 0) (hm : m < 2 ^ 53) :
    2 ^ 52 + (m - 2 ^ m.log2) * 2 ^ (52 - m.log2) = m * 2 ^ (52 - m.log2) := by
  have he : m.log2 < 53 := (Nat.log2_lt h0).2 hm
  have hlead : 2 ^ m.log2 * 2 ^ (52 - m.log2) = 2 ^ 52 := by rw [← pow_add, Nat.add_sub_cancel' (by omega)]
  rw [← hlead, ← Nat.add_mul, Nat.add_sub_cancel' (Nat.log2_self_le h0)]

/-- R156: it has 53 bits, so the fraction fits its field. -/
theorem f64_fraction_lt {m : Nat} (h0 : m ≠ 0) (hm : m < 2 ^ 53) :
    (m - 2 ^ m.log2) * 2 ^ (52 - m.log2) < 2 ^ 52 := by
  have he : m.log2 < 53 := (Nat.log2_lt h0).2 hm
  have hlt : m * 2 ^ (52 - m.log2) < 2 ^ 53 :=
    calc m * 2 ^ (52 - m.log2)
        < 2 ^ (m.log2 + 1) * 2 ^ (52 - m.log2) := Nat.mul_lt_mul_of_pos_right Nat.lt_log2_self (by positivity)
      _ = 2 ^ 53 := by rw [← pow_add]; congr 1; omega
  have := f64_significand h0 hm
  omega

/-- Settles O47: the exponent and fraction fields are read off the 64 bits. -/
theorem floatIsExact : Obligations.FloatIsExact := by
  refine ⟨by decide, fun m hpos hm => ⟨length_f64 m, m.log2 + 970, (m - 2 ^ m.log2) * 2 ^ (52 - m.log2), ?_⟩⟩
  have h0 : m ≠ 0 := hpos.ne'
  have he : m.log2 < 53 := (Nat.log2_lt h0).2 hm
  have hfrac := f64_fraction_lt h0 hm
  refine ⟨?_, hfrac, by omega, by omega, ?_⟩
  · rw [f64, be_beBytes, f64Bits_eq h0 hm]
    exact Nat.mod_eq_of_lt (by omega)
  · rw [f64_significand h0 hm, show 1022 - (m.log2 + 970) = 52 - m.log2 by omega]

/-! ### The constant providers (R159) -/

/-- R159: a draw from an external provider that stays as it is changes only the response. -/
theorem exec_draws_constant {i : Instr} {n : Nat} {f : Nat → List Byte} (hi : Draws i n f) {s : State}
    (hp : s.blk.PSEL = .ext) {bs : List Byte} (hfix : providerSqueeze s.ext n = (bs, s.ext)) :
    exec i s = .next { s with resp := s.resp ++ 0x00 :: f (be bs) } := by
  rw [exec_of_performs (.drawExt hi hp), extSqueeze, hfix]
  rfl

theorem be_replicate_zeros (n : Nat) : be (List.replicate n 0x00) = 0 := by
  induction n with
  | zero => rfl
  | succ n ih =>
    rw [List.replicate_succ, be_cons, ih]
    exact Nat.zero_mul _

theorem beBytes_zero (n : Nat) : beBytes 0 n = List.replicate n 0x00 := by
  induction n with
  | zero => rfl
  | succ n ih => simp [List.replicate_succ, beBytes, ih]

theorem be_replicate_ones (n : Nat) : be (List.replicate n 0xFF) + 1 = 256 ^ n := by
  induction n with
  | zero => rfl
  | succ n ih =>
    rw [List.replicate_succ, be_cons, List.length_replicate, Nat.add_assoc, ih, show (0xFF : Byte).toNat = 255 from rfl]
    ring

/-- R159: the low bits of all-one bits are all ones. -/
theorem lowBits_ones {k n : Nat} (hk : k ≤ 8 * n) : lowBits (be (List.replicate n 0xFF)) k = 2 ^ k - 1 := by
  have hpow : 256 ^ n = 2 ^ k * 2 ^ (8 * n - k) := by
    rw [← pow_add, Nat.add_sub_cancel' hk, pow_mul]
    norm_num
  have hones : be (List.replicate n 0xFF) = 2 ^ k * 2 ^ (8 * n - k) - 1 := by
    rw [← hpow, ← be_replicate_ones n, Nat.add_sub_cancel]
  rw [lowBits_eq, hones]
  exact Nat.mul_sub_mod (x := 0) (by positivity)

/-- Settles O48: two draws from each of the two providers. -/
theorem constantProviders : Obligations.ConstantProviders := by
  intro k s hk hp
  refine ⟨fun hext => ⟨?_, ?_⟩, fun hext => ⟨?_, ?_⟩⟩
  · rw [exec_draws_constant (.getrandbits hk) hp (by rw [hext]; rfl), lowBits_ones (by simp only [ceilDiv]; omega)]
    rfl
  · rw [exec_draws_constant .random hp (by rw [hext]; rfl), lowBits_ones (by norm_num)]
    rfl
  · rw [exec_draws_constant (.getrandbits hk) hp (by rw [hext]; rfl), be_replicate_zeros, lowBits_eq, Nat.zero_mod,
      beBytes_zero]
    rfl
  · rw [exec_draws_constant .random hp (by rw [hext]; rfl), be_replicate_zeros]
    rfl

end Sys2Proof.Machine
end

section
/-! PROOFS. STAT: the flags register as a number, and the nine registers that the command shows. -/

namespace Sys2Proof.Machine

/-- R38: the three flags stand at bits 2, 1 and 0, and do not overlap. -/
theorem toNat_srFlags (b : Block) :
    (srFlags b).toNat = 4 * (selBit b.PSEL).toNat + 2 * (boolBit b.FINALIZED).toNat + b.PHASE.bit.toNat := by
  unfold srFlags
  cases b.PSEL <;> cases b.FINALIZED <;> cases b.PHASE <;> rfl

/-- Settles O50: STAT performs nothing and shows `statusRegisters`, whose first two bytes encode named values. -/
theorem statShowsTheStatusRegisters : Obligations.StatShowsTheStatusRegisters := by
  refine ⟨by decide, fun s => ⟨s.blk.MODE.code, srFlags s.blk, exec_of_performs .stat, ?_, ?_⟩⟩
  · cases s.blk.MODE <;> rfl
  · rw [toNat_srFlags]
    congr 2
    · cases s.blk.PSEL <;> rfl
    · cases s.blk.FINALIZED <;> rfl
    · cases s.blk.PHASE <;> rfl

end Sys2Proof.Machine
end

section
/-! PROOFS. Exceptions: what a failing command writes, which commands report which code, and that under the invariant
a step stops only where the command stream does. -/

namespace Sys2Proof.Machine

/-! ### Failing commands (R186) -/

/-- Settles O18: a command of which the tables name an error, and an undefined word, do what `raise` writes. -/
theorem failingCommandsWriteOnlyErr : Obligations.FailingCommandsWriteOnlyErr :=
  ⟨fun _ _ _ he => exec_of_errorOf he, fun _ _ _ hr hd => step_of_undefinedWord hr hd⟩

/-! ### Codes and the commands that report them (R181 to R183) -/

theorem code_injective : Function.Injective Error.code := by
  intro e e'
  cases e <;> cases e' <;> decide

/-- R181: no error is reported as `OK`. -/
theorem code_ne_statusOk (e : Error) : e.code ≠ statusOk := by cases e <;> decide

/-- R86, R181: the response tells the error, for no other error has its code and no success starts with it. -/
theorem errorOf_of_resp {i : Instr} {s t : State} {e : Error} (h : exec i s = .next t)
    (hresp : t.resp = s.resp ++ [e.code]) : errorOf i s.blk = some e := by
  obtain ⟨e', he', rfl⟩ | ⟨-, out, u, hu, rfl⟩ := exec_next h
  · have hcode : e'.code = e.code := by simpa using hresp
    rw [he', code_injective hcode]
  · have hstart : statusOk :: out = [e.code] := List.append_cancel_left (hu.resp_respond.symm.trans hresp)
    exact absurd (List.head_eq_of_cons_eq hstart).symm (code_ne_statusOk e)

/-- R85: an error that is not `IllegalCommand` comes from the command's own check. -/
theorem ownError_of_errorOf {i : Instr} {b : Block} {e : Error} (h : errorOf i b = some e)
    (hne : e ≠ .illegalCommand) : ownError i b = some e := by
  unfold errorOf at h
  split_ifs at h
  · exact absurd (Option.some.inj h).symm hne
  · exact h
  · exact absurd (Option.some.inj h).symm hne

/-- R182: only the constructions check a configuration. -/
theorem construction_of_configurationError {i : Instr} {b : Block} (h : ownError i b = some .configurationError) :
    (∃ rate cap ds, i = .sinit rate cap ds) ∨ ∃ var data, i = .hinit var data := by
  cases i with
  | sinit rate cap ds => exact .inl ⟨rate, cap, ds, rfl⟩
  | hinit var data => exact .inr ⟨var, data, rfl⟩
  | absorb | update => simp [ownError] at h
  | squeeze | digest | hexdigest | rbind | getrandbits | random | stat => cases h

/-- R183: only the commands that take a message check the state. -/
theorem feed_of_stateError {i : Instr} {b : Block} (h : ownError i b = some .stateError) :
    (∃ data, i = .absorb data) ∨ ∃ data, i = .update data := by
  cases i with
  | absorb data => exact .inl ⟨data, rfl⟩
  | update data => exact .inr ⟨data, rfl⟩
  | sinit | hinit => simp [ownError] at h
  | squeeze | digest | hexdigest | rbind | getrandbits | random | stat => cases h

/-- Settles O19: the response tells the error, which is of the command's own check. -/
theorem errorsOfEachCommand : Obligations.ErrorsOfEachCommand := by
  refine ⟨rfl, rfl, rfl, fun i s t h => ⟨fun hresp => ?_, fun hresp => ?_⟩⟩
  · have he : errorOf i s.blk = some .configurationError := errorOf_of_resp h hresp
    exact construction_of_configurationError (ownError_of_errorOf he (by simp))
  · have he : errorOf i s.blk = some .stateError := errorOf_of_resp h hresp
    exact feed_of_stateError (ownError_of_errorOf he (by simp))

/-! ### Where a step stops (R90, R190) -/

/-- R90, R223: the reasons to refuse a step that lie in the command stream: it is used up, or ends inside a word or a
payload. -/
def StreamStops (r : Refusal) : Prop := r = .noCommand ∨ r = .truncatedWord ∨ r = .truncatedPayload

/-- R85: only an empty stream decodes to the end of the stream. -/
theorem eq_nil_of_decode_endOfStream {bytes : List Byte} (h : decode bytes = .endOfStream) : bytes = [] := by
  match bytes with
  | [] => rfl
  | [_] | [_, _] | [_, _, _] => cases h
  | b3 :: b2 :: b1 :: b0 :: rest =>
    change decodeWord (wordOfBytes b3 b2 b1 b0) rest = .endOfStream at h
    unfold decodeWord at h
    split at h
    · cases h
    · split_ifs at h

/-- R190: under the invariant a step completes, or is refused for what the command stream holds. -/
theorem step_completes_or_streamStops {s : State} (h : Inv s) :
    (∃ t, step s = .next t) ∨ ∃ r, step s = .refused r ∧ StreamStops r := by
  cases hr : s.resetPending with
  | true => exact .inl ⟨_, step_of_resetPending hr⟩
  | false =>
    cases hd : decode s.cmd with
    | command i rest =>
      obtain ⟨t, ht⟩ := exec_completes (ready_of_inv (inv_takeCommand h (4 + i.payload.length) rest)) i
      exact .inl ⟨t, (step_of_command hr hd).trans ht⟩
    | undefinedWord w rest => exact .inl ⟨_, step_of_undefinedWord hr hd⟩
    | endOfStream => exact .inr ⟨_, step_of_endOfStream hr (eq_nil_of_decode_endOfStream hd), .inl rfl⟩
    | truncatedWord => exact .inr ⟨_, step_of_truncatedWord hr hd, .inr (.inl rfl)⟩
    | truncatedPayload w => exact .inr ⟨_, step_of_truncatedPayload hr hd, .inr (.inr rfl)⟩

/-- Settles O11: a step that completes, or that the stream stops, is no fault. -/
theorem noFaultUnderTheInvariant : Obligations.NoFaultUnderTheInvariant := by
  intro s h
  obtain ⟨t, ht⟩ | ⟨r, hr, hstops⟩ := step_completes_or_streamStops h
  · simp [ht]
  · rw [hr]
    exact ⟨by simp, fun r' hr' => by cases hr'; exact hstops⟩

end Sys2Proof.Machine
end

section
/-! PROOFS. The reset event (R210): the elements of the block as after reset, and everything outside the block kept. -/

namespace Sys2Proof.Machine

/-- Settles O7: the step is the reset event, whose block has the values R45 gives every element after reset. -/
theorem resetEventClearsTheBlock : Obligations.ResetEventClearsTheBlock := by
  intro s hr
  obtain ⟨hS, hRate, hCap, hDsbyte, hAcur, hScur, hPhase, hMode, hOutlen, hFinalized, hDcache, hPsel, hErr, hevent⟩ :=
    resetValuesOfEveryElement
  obtain ⟨hblk, hext⟩ := hevent s
  refine ⟨resetEvent s, step_of_resetPending hr, ?_⟩
  rw [hblk]
  exact ⟨hS, hRate, hCap, hDsbyte, hAcur, hScur, hPhase, hMode, hOutlen, hFinalized, hDcache, hPsel, hErr, hext,
    resetEvent_par s, resetEvent_cmd s, resetEvent_cpos s, resetEvent_resp s, resetEvent_resetPending s⟩

end Sys2Proof.Machine
end
